-- ==== Sys2Proof/Config.lean ====
section
/-! DEFINITION. The parameters of 00_scope.md rule R8 that this hardware fixes and an encoding depends on.
The rest of R7 and R8 is fixed by types: 32-bit words, 64-byte blocks, eight hash words, a 64-bit
counter, a 4-bit read index, and one context (NCTX = 1), which is the one HashState that State holds. -/

namespace Sys2Proof

/-- `UPD_MAX`: bytes carried by one UPDATE command (R8, 92_eei_decisions.md D6). -/
abbrev Config.updMax : Nat := 4

end Sys2Proof
end

