-- ==== Sys2Proof/Word.lean ====
section
/-! DEFINITION. The word and byte types of SHA256CORE (00_scope.md rules R7, R9, R10, R12).
Bit 0 is the least significant bit of every value (R9); `+` on a `Word` is addition modulo 2^32 (R10). -/

namespace Sys2Proof

/-- "an unsigned 32-bit integer; the engine's native arithmetic unit" (R7, R10, Glossary "Word"). -/
abbrev Word := BitVec 32

/-- An 8-bit unsigned value, the unit of byte sequences (R12). -/
abbrev Byte := BitVec 8

/-- "a 64-byte unit of input consumed by" one application of the compression function
(Glossary "Block", 90_conflicts.md C4). -/
abbrev Block := Vector Byte 64

/-- The eight hash words `h[0..7]` (R21), in order. -/
abbrev HashWords := Vector Word 8

end Sys2Proof
end

