-- ==== Sys2Proof/Syntax.lean ====
section
/-! DEFINITION. The five host commands, one constructor per row of spec/opcode_table.json (30_encoding.md rule R72). -/

namespace Sys2Proof

/-- A legal command with its operands: what `decode` of R75 answers. `update` carries the byte count `N = CMD[2:0]`
and the whole DATA word (R74); the other commands ignore DATA and carry nothing. -/
inductive Instr where
  | nop
  | init
  | update (n : Nat) (data : Word)
  | final
  | destroy
  deriving DecidableEq, Repr

end Sys2Proof
end

