-- ==== Sys2Proof/WellFormed.lean ====
section
/-! DEFINITION. Which terms of `Instr` stand for a command word (30_encoding.md rule R73). -/

namespace Sys2Proof

/-- UPDATE carries at most `UPD_MAX` = 4 bytes; nothing else has an operand to check (R73, R74). -/
def Instr.wellFormed : Instr → Bool
  | .nop => true
  | .init => true
  | .update n _ => decide (n ≤ Config.updMax)
  | .final => true
  | .destroy => true

end Sys2Proof
end

