-- ==== Sys2Proof/Decode.lean ====
section
/-! DEFINITION. The command decoder and encoder (30_encoding.md rules R71 to R76). A command transaction is two
32-bit words, the command word and the DATA word (R70). -/

namespace Sys2Proof

/-- `CMD[31:24]` (R71). -/
def opcField (cmd : Word) : BitVec 8 := cmd.extractLsb' 24 8

/-- `CMD[23:3]`, reserved, must be 0 (R71). -/
def rsvField (cmd : Word) : BitVec 21 := cmd.extractLsb' 3 21

/-- `CMD[2:0]`, the byte count (R71, R74). -/
def nField (cmd : Word) : BitVec 3 := cmd.extractLsb' 0 3

/-- `legal(CMD)` (R73). -/
def legal (cmd : Word) : Bool :=
  decide ((opcField cmd).toNat ≤ 0x04) && decide (rsvField cmd = 0) &&
    (if (opcField cmd).toNat = 0x02 then decide ((nField cmd).toNat ≤ 4) else decide (nField cmd = 0))

/-- Why a command word is not legal (R76). Each is the one outcome `Illegal` of R75, and the command then fails
with ILLEGAL whichever it is (60_exceptions.md R201). -/
inductive Illegal where
  /-- opcode in 0x05 to 0xFF -/
  | reservedOpcode
  /-- a 1 in bits 23:3 -/
  | reservedBits
  /-- UPDATE with N = 5, 6 or 7 -/
  | countTooLarge
  /-- NOP, INIT, FINAL or DESTROY with N ≠ 0 -/
  | countNotZero
  deriving DecidableEq, Repr

/-- A command with no operand: its N must be 0 (R71, R73). -/
def decodeBare (n : BitVec 3) (i : Instr) : Except Illegal Instr :=
  if n = 0 then .ok i else .error .countNotZero

/-- UPDATE: N in 0..4 (R72, R73). -/
def decodeUpdate (n : BitVec 3) (data : Word) : Except Illegal Instr :=
  if n.toNat ≤ 4 then .ok (.update n.toNat data) else .error .countTooLarge

/-- `decode` (R75), with DATA kept as UPDATE's operand (R74): total on any two words. -/
def decode (cmd data : Word) : Except Illegal Instr :=
  if rsvField cmd = 0 then
    match (opcField cmd).toNat with
    | 0x00 => decodeBare (nField cmd) .nop
    | 0x01 => decodeBare (nField cmd) .init
    | 0x02 => decodeUpdate (nField cmd) data
    | 0x03 => decodeBare (nField cmd) .final
    | 0x04 => decodeBare (nField cmd) .destroy
    | _ => .error .reservedOpcode
  else .error .reservedBits

/-- The command word with an opcode, reserved bits 0 and a count (R71). -/
def commandWord (opc : BitVec 8) (n : BitVec 3) : Word := opc ++ 0#21 ++ n

/-- The command word and DATA word of a well-formed command (R72); DATA is 0 where the command ignores it (R78). -/
def encode : Instr → Word × Word
  | .nop => (commandWord 0x00 0, 0)
  | .init => (commandWord 0x01 0, 0)
  | .update n data => (commandWord 0x02 (BitVec.ofNat 3 n), data)
  | .final => (commandWord 0x03 0, 0)
  | .destroy => (commandWord 0x04 0, 0)

/-- The command word in an instruction of `nbits` bits numbered as the opcode table numbers them: the first word. -/
def tableCmd (nbits w : Nat) : Word := BitVec.ofNat 32 (w % 2 ^ nbits)

/-- The DATA word in such an instruction: the second word, 0 where the table gives it no bits. -/
def tableData (nbits w : Nat) : Word := BitVec.ofNat 32 (w % 2 ^ nbits / 2 ^ 32)

/-- The command the decoder reads from an instruction numbered as the opcode table numbers it. -/
def decodeTableWord (nbits w : Nat) : Option Instr :=
  match decode (tableCmd nbits w) (tableData nbits w) with
  | .ok i => some i
  | .error _ => none

end Sys2Proof
end

