-- ==== Sys2Proof/Machine/Operands.lean ====
section
/-! DEFINITION. The byte orders of the block (20_memory.md rules R51 to R54) and the one operand form an
UPDATE command has (30_encoding.md rule R74). -/

namespace Sys2Proof.Machine

/-- `be32(b0,b1,b2,b3) = b0·2^24 + b1·2^16 + b2·2^8 + b3` (R12): the first byte is the most significant. -/
def be32 (b0 b1 b2 b3 : Byte) : Word := b0 ++ b1 ++ b2 ++ b3

/-- `be32bytes(w)`: the four bytes of a word, most significant first (R53, R54). -/
def be32bytes (w : Word) : List Byte :=
  [w.extractLsb' 24 8, w.extractLsb' 16 8, w.extractLsb' 8 8, w.extractLsb' 0 8]

/-- `be64bytes(v)`: the eight bytes of a 64-bit value, most significant first (R12, R52). -/
def be64bytes (v : BitVec 64) : List Byte :=
  [v.extractLsb' 56 8, v.extractLsb' 48 8, v.extractLsb' 40 8, v.extractLsb' 32 8,
   v.extractLsb' 24 8, v.extractLsb' 16 8, v.extractLsb' 8 8, v.extractLsb' 0 8]

/-- `bytes(DATA, N)`: the first `N` bytes of DATA, most significant first; the others are ignored (R74). -/
def dataBytes (data : Word) (n : Nat) : List Byte := (be32bytes data).take n

/-- `be32bytes(h[0]) ++ ... ++ be32bytes(h[7])`: the byte serialisation of the digest (R53). -/
def digestBytes (h : HashWords) : List Byte := h.toList.flatMap be32bytes

end Sys2Proof.Machine
end

