-- ==== Sys2Proof/Machine/Compress.lean ====
section
/-! DEFINITION. The compression function (41_compression.md): bit functions, message schedule expander, round
mixer and accumulator. These are internal operations: they write no STATUS field and cannot fail (R120). The
schedule and the working variables are transient (10_state.md rule R29), so State does not hold them. -/

namespace Sys2Proof.Machine

/-- "a circular right rotation of a 32-bit value by `n` bits", for `0 < n < 32` (R10, R121). -/
def rotr (x : Word) (n : Nat) : Word := (x >>> n) ||| (x <<< (32 - n))

/-- `x >> n`: logical right shift filling with zeros (R10, R122). -/
def shr (x : Word) (n : Nat) : Word := x >>> n

/-- `Σ0`, applied to `a` (R123). -/
def bigSigma0 (x : Word) : Word := rotr x 2 ^^^ rotr x 13 ^^^ rotr x 22

/-- `Σ1`, applied to `e` (R124). -/
def bigSigma1 (x : Word) : Word := rotr x 6 ^^^ rotr x 11 ^^^ rotr x 25

/-- `σ0`, the source's `s0` (R125). -/
def smallSigma0 (x : Word) : Word := rotr x 7 ^^^ rotr x 18 ^^^ shr x 3

/-- `σ1`, the source's `s1` (R126). -/
def smallSigma1 (x : Word) : Word := rotr x 17 ^^^ rotr x 19 ^^^ shr x 10

/-- `Ch(e,f,g)` (R127). -/
def ch (e f g : Word) : Word := (e &&& f) ^^^ (~~~e &&& g)

/-- `Maj(a,b,c)` (R128). -/
def maj (a b c : Word) : Word := (a &&& b) ^^^ (a &&& c) ^^^ (b &&& c)

/-- `W[t]` for `t` in `0..64`, of a schedule kept as the list of its words so far. -/
def schedWord (w : List Word) (t : Nat) : Word := w.getD t 0

/-- `W[t]` for `t` in `0..16`: the block as big-endian words (R51). -/
def blockWord (b : Block) (t : Nat) : Word :=
  be32 (b.toList.getD (4 * t) 0) (b.toList.getD (4 * t + 1) 0)
    (b.toList.getD (4 * t + 2) 0) (b.toList.getD (4 * t + 3) 0)

/-- The 16 direct words of the schedule (R129, first loop). -/
def directWords (b : Block) : List Word := (List.range 16).map (blockWord b)

/-- `W[t-16] + σ0(W[t-15]) + W[t-7] + σ1(W[t-2])`, `t` being the number of words so far (R129, second loop). -/
def nextWord (w : List Word) : Word :=
  let t := w.length
  schedWord w (t - 16) + smallSigma0 (schedWord w (t - 15)) + schedWord w (t - 7) + smallSigma1 (schedWord w (t - 2))

/-- `k` turns of R129's second loop, each adding the next word. -/
def expandWords : Nat → List Word → List Word
  | 0, w => w
  | k + 1, w => expandWords k (w ++ [nextWord w])

/-- SCHEDULE: the 64 words of the message schedule, 16 direct and 48 expanded (R129). -/
def schedule (b : Block) : List Word := expandWords 48 (directWords b)

/-- The working variables `a, b, c, d, e, f, g, hh` (R14, R29). -/
structure Work where
  a : Word
  b : Word
  c : Word
  d : Word
  e : Word
  f : Word
  g : Word
  hh : Word
  deriving DecidableEq, Repr

/-- `T1` of round `i` (R130), given `K[i]` and `W[i]`. -/
def temp1 (v : Work) (ki wi : Word) : Word := v.hh + bigSigma1 v.e + ch v.e v.f v.g + ki + wi

/-- `T2` of a round (R130). -/
def temp2 (v : Work) : Word := bigSigma0 v.a + maj v.a v.b v.c

/-- ROUND: one mixing round; the eight assignments are simultaneous (R130). -/
def roundStep (w : List Word) (v : Work) (i : Nat) : Work :=
  let t1 := temp1 v (roundConstant i) (schedWord w i)
  { a := t1 + temp2 v, b := v.a, c := v.b, d := v.c, e := v.d + t1, f := v.e, g := v.f, hh := v.g }

/-- `a..h` from the current `h[0..7]` (R131, R132). -/
def Work.ofHash (h : HashWords) : Work :=
  { a := h[0], b := h[1], c := h[2], d := h[3], e := h[4], f := h[5], g := h[6], hh := h[7] }

/-- The round loop, `i` = 0 to 63 in order (R131). -/
def rounds (h : HashWords) (w : List Word) : Work := (List.range 64).foldl (roundStep w) (Work.ofHash h)

/-- ACCUMULATE: each hash word incremented by its working variable, modulo 2^32 (R132, R133). -/
def accumulate (h : HashWords) (v : Work) : HashWords :=
  #v[h[0] + v.a, h[1] + v.b, h[2] + v.c, h[3] + v.d, h[4] + v.e, h[5] + v.f, h[6] + v.g, h[7] + v.hh]

/-- COMPRESS: one application of the compression function, to a block of exactly 64 bytes (R134, R135). -/
def compress (h : HashWords) (b : Block) : HashWords := accumulate h (rounds h (schedule b))

end Sys2Proof.Machine
end

