-- ==== Sys2Proof/Machine/State.lean ====
section
/-! DEFINITION. The state of one SHA256CORE instance (10_state.md rule R20), the host transactions it is about to be
given and the words it has returned, and the reasons a step could stop. -/

namespace Sys2Proof.Machine

/-- `lc`, the lifecycle state; no fourth value exists (R25). -/
inductive Lc where
  /-- no HashState exists -/
  | idle
  /-- created and accepting UPDATE -/
  | active
  /-- digest produced -/
  | final
  deriving DecidableEq, Repr

/-- `err`, the result of the most recent command; codes 4 to 15 are never produced (R26, 60_exceptions.md R200). -/
inductive ErrCode where
  | ok
  /-- the command word is not legal -/
  | illegal
  /-- the lifecycle precondition of UPDATE, FINAL or DESTROY fails -/
  | usage
  /-- INIT while the one context is in use -/
  | alloc
  deriving DecidableEq, Repr

/-- One transaction of the host (20_memory.md rule R65, 30_encoding.md rule R70). -/
inductive Request where
  /-- a command word and a DATA word on the command channel; any two words may be issued -/
  | command (cmd data : Word)
  /-- an index on the read channel -/
  | read (ridx : BitVec 4)
  /-- reset asserted between commands -/
  | reset
  /-- reset asserted before this command has returned its response (70_reset_and_hazards.md rule R231) -/
  | abandoned (cmd data : Word)
  deriving DecidableEq, Repr

/-- What one transaction returns to the host (30_encoding.md rule R70); a reset returns nothing. -/
inductive Reply where
  /-- the response of a command: STATUS after it -/
  | status (w : Word)
  /-- RDATA of a read -/
  | rdata (w : Word)
  deriving DecidableEq, Repr

/-- One instance. `lc` to `total` are the record of R20. `queue`, `replies` and `blocks` are the MODEL's own: the
host's coming transactions, the observation of a run (20_memory.md R66), and the blocks given to COMPRESS so far,
which no operation reads (log entries 1, 2, 3). -/
structure State where
  lc : Lc
  err : ErrCode
  /-- the running hash value `h[0..7]` (R21) -/
  h : HashWords
  /-- the block buffer, the stale bytes at and above `pcount` included (R22, R36) -/
  pending : Block
  /-- the number of valid bytes in `pending`, 0..63 (R23) -/
  pcount : Fin 64
  /-- bytes ever passed to update, modulo 2^64 (R24) -/
  total : BitVec 64
  /-- transactions not yet served, oldest first -/
  queue : List Request
  /-- words returned to the host, oldest first -/
  replies : List Reply
  /-- blocks given to COMPRESS, oldest first -/
  blocks : List Block
  deriving DecidableEq, Repr

/-- Reasons to stop with a fault. There is none: every error of the spec is a result code and the block goes on
(60_exceptions.md R205, R207), and what 93_implementation_defined.md U8 and U12 would fault on no value of these types is. -/
inductive Fault
  deriving DecidableEq, Repr

/-- Reasons to refuse. No arm of `exec` raises one. -/
inductive Refusal where
  /-- raised by `exec` for an instruction that has no meaning yet; safe. No instruction is left so. -/
  | notModelled (mnemonic : String)
  deriving DecidableEq, Repr

/-- The state after reset (10_state.md R34, 70_reset_and_hazards.md R230); nothing issued, returned or compressed. -/
def State.reset : State :=
  { lc := .idle, err := .ok, h := Vector.replicate 8 0, pending := Vector.replicate 64 0, pcount := 0, total := 0,
    queue := [], replies := [], blocks := [] }

end Sys2Proof.Machine
end

