-- ==== Sys2Proof/Machine/Flags.lean ====
section
/-! DEFINITION. The STATUS word (10_state.md rule R27), the only flags the block has (R33). -/

namespace Sys2Proof.Machine

/-- STATUS.LC of each lifecycle state (R25). -/
def Lc.code : Lc → Nat
  | .idle => 0
  | .active => 1
  | .final => 2

/-- STATUS.ERR of each result (R26, 60_exceptions.md R200). -/
def ErrCode.code : ErrCode → Nat
  | .ok => 0
  | .illegal => 1
  | .usage => 2
  | .alloc => 3

/-- `STATUS = (pcount << 8) | (err << 4) | lc` (R27). -/
def State.status (s : State) : Word :=
  (BitVec.ofNat 32 s.pcount.val <<< 8) ||| (BitVec.ofNat 32 s.err.code <<< 4) ||| BitVec.ofNat 32 s.lc.code

end Sys2Proof.Machine
end

