-- ==== Sys2Proof/Machine/Ops.lean ====
section
/-! DEFINITION. The named operations on the state: writing `pending`, compressing a block, answering a command (which
is also how an error is taken), the read space and reset. -/

namespace Sys2Proof.Machine

/-- A block of 64 zero bytes. -/
def zeroBlock : Block := Vector.replicate 64 0

/-- `for j in 0..|bytes|: buf[k + j] <- bytes[j]`, the copy of R160 and R180. Callers keep `k + |bytes| ≤ 64`. -/
def writeBytes (buf : Block) (k : Nat) : List Byte → Block
  | [] => buf
  | b :: bs => writeBytes (buf.setIfInBounds k b) (k + 1) bs

/-- `for j in lo..hi: buf[j] <- 0x00` (R180). -/
def zeroFill (buf : Block) (lo hi : Nat) : Block := writeBytes buf lo (List.replicate (hi - lo) 0)

/-- The block whose bytes are the 64 bytes of a list; only lists of exactly 64 bytes are passed (R135). -/
def blockOfBytes (bytes : List Byte) : Block := writeBytes zeroBlock 0 bytes

/-- `S.h <- compress(S.h, B)` (R134). -/
def State.compressBlock (s : State) (b : Block) : State :=
  { s with h := compress s.h b, blocks := s.blocks ++ [b] }

/-- `S.err <- E; resp <- STATUS(S)`: how every command ends (R100). -/
def State.respond (e : ErrCode) (s : State) : State :=
  let t := { s with err := e }
  { t with replies := t.replies ++ [.status t.status] }

/-- TAKING AN ERROR, `fail E`: `err` and the response, nothing else (R100, R205). There is no trap to take, no saved
register and no return from one: the host's next command is the only "return" (R207, R208). -/
def State.fail (e : ErrCode) (s : State) : State := s.respond e

/-- The step of a legal command (R100): its lifecycle precondition and the code of its failure, then its body, then
`err <- OK` and the response. -/
def State.run (pre : Lc → Bool) (code : ErrCode) (body : State → State) (s : State) : State :=
  if pre s.lc then (body s).respond .ok else s.fail code

/-- The host read space (20_memory.md R55). -/
def State.readWord (s : State) (ridx : BitVec 4) : Word :=
  match ridx.toNat with
  | 0x0 => s.status
  | 0x1 => s.total.extractLsb' 0 32
  | 0x2 => s.total.extractLsb' 32 32
  | 0x8 => s.h[0]
  | 0x9 => s.h[1]
  | 0xA => s.h[2]
  | 0xB => s.h[3]
  | 0xC => s.h[4]
  | 0xD => s.h[5]
  | 0xE => s.h[6]
  | 0xF => s.h[7]
  | _ => 0

/-- A read: the word is returned and nothing else changes (R56). -/
def State.serveRead (s : State) (ridx : BitVec 4) : State :=
  { s with replies := s.replies ++ [.rdata (s.readWord ridx)] }

/-- A reset: every piece of the block's state at its reset value, nothing returned (R230). The host's coming
transactions and the record of the past ones are not the block's. -/
def State.serveReset (s : State) : State :=
  { State.reset with queue := s.queue, replies := s.replies, blocks := s.blocks }

end Sys2Proof.Machine
end

