-- ==== Sys2Proof/Machine/Finalize.lean ====
section
/-! DEFINITION. The finalizer and the FINAL command (43_finalize.md). -/

namespace Sys2Proof.Machine

/-- `L = (S.total * 8) mod 2^64`, truncated without a check (R181). -/
def State.bitCount (s : State) : BitVec 64 := s.total * 8

/-- Step 1: 0x80 at index `pcount` (R180). -/
def State.appendMark (s : State) : State := { s with pending := writeBytes s.pending s.pcount.val [0x80] }

/-- Step 2, when the length field has no room after fill index `p`: the rest of `pending` zeroed, the block
compressed, `pending` all zero (R180). -/
def State.spill (s : State) (p : Nat) : State :=
  { s.compressBlock (zeroFill s.pending p 64) with pending := zeroBlock }

/-- Steps 3 and 4: zeros up to byte 56 and the length, big-endian, in bytes 56..64 (R180, 20_memory.md R52). -/
def State.lengthBlock (s : State) (p : Nat) : Block :=
  writeBytes (zeroFill s.pending p 56) 56 (be64bytes s.bitCount)

/-- Steps 3 to 5 from fill index `p`: that block is left in `pending` and compressed, `pcount <- 0` (R180). -/
def State.lastBlock (s : State) (p : Nat) : State :=
  { ({ s with pending := s.lengthBlock p } : State).compressBlock (s.lengthBlock p) with pcount := 0 }

/-- `finalize(S)`; the digest is left in `h` (R180, R183). -/
def State.finalize (s : State) : State :=
  let p := s.pcount.val + 1
  let s := s.appendMark
  if 64 - 8 < p then (s.spill p).lastBlock 0 else s.lastBlock p

/-- The body of FINAL (R184). -/
def finalBody (s : State) : State := { s.finalize with lc := .final }

/-- FINAL (R184): USAGE unless ACTIVE. -/
def execFinal (s : State) : Host.Outcome State Fault Refusal := .next (s.run (· == .active) .usage finalBody)

end Sys2Proof.Machine
end

