-- ==== Sys2Proof/Machine/Lifecycle.lean ====
section
/-! DEFINITION. NOP, INIT and DESTROY (40_lifecycle.md). -/

namespace Sys2Proof.Machine

/-- NOP (R101): only `err` and the response; no precondition, so no code of failure is ever used. -/
def execNop (s : State) : Host.Outcome State Fault Refusal := .next (s.run (fun _ => true) .ok id)

/-- The body of INIT (R103); `pending` is not written. -/
def initBody (s : State) : State := { s with h := iv, pcount := 0, total := 0, lc := .active }

/-- INIT (R103): ALLOC unless IDLE. -/
def execInit (s : State) : Host.Outcome State Fault Refusal := .next (s.run (· == .idle) .alloc initBody)

/-- The body of DESTROY (R106). -/
def destroyBody (s : State) : State :=
  { s with h := Vector.replicate 8 0, pending := zeroBlock, pcount := 0, total := 0, lc := .idle }

/-- DESTROY (R106): USAGE in IDLE. -/
def execDestroy (s : State) : Host.Outcome State Fault Refusal := .next (s.run (· != .idle) .usage destroyBody)

end Sys2Proof.Machine
end

