-- ==== Sys2Proof/Machine/Update.lean ====
section
/-! DEFINITION. The update pipeline and the UPDATE command (42_update.md). -/

namespace Sys2Proof.Machine

/-- `k` turns of the direct path: each compresses the next 64 bytes without copying them into `pending` (R160, R162). -/
def State.directPath (s : State) : Nat → List Byte → State
  | 0, _ => s
  | k + 1, data => (s.compressBlock (blockOfBytes (data.take 64))).directPath k (data.drop 64)

/-- The remainder, fewer than 64 bytes: copied to the front of `pending` (R160, R163). -/
def State.keepRemainder (s : State) (rest : List Byte) : State :=
  { s with pending := writeBytes s.pending 0 rest, pcount := Fin.ofNat 64 rest.length }

/-- The direct path and the remainder, run with `pcount = 0`; the loop `while len - off >= 64` turns
`floor((len - off) / 64)` times (R160). -/
def State.absorbFromEmpty (s : State) (data : List Byte) : State :=
  let k := data.length / 64
  (s.directPath k data).keepRemainder (data.drop (64 * k))

/-- The fill path when `data` fills the block: `need` bytes copied, the block compressed, `pcount <- 0` (R161). -/
def State.fillAndCompress (s : State) (bytes : List Byte) : State :=
  let full := writeBytes s.pending s.pcount.val bytes
  { ({ s with pending := full } : State).compressBlock full with pcount := 0 }

/-- The fill path when `data` does not fill the block (R161). -/
def State.appendPartial (s : State) (data : List Byte) : State :=
  { s with pending := writeBytes s.pending s.pcount.val data, pcount := Fin.ofNat 64 (s.pcount.val + data.length) }

/-- `S.total <- (S.total + len) mod 2^64`, "unconditionally, even if len == 0" (R24, R160). -/
def State.countBytes (s : State) (len : Nat) : State := { s with total := s.total + BitVec.ofNat 64 len }

/-- `update(S, data)`, for a byte list of any length (R160). -/
def State.update (s : State) (data : List Byte) : State :=
  let s := s.countBytes data.length
  if s.pcount = 0 then s.absorbFromEmpty data
  else
    let need := 64 - s.pcount.val
    if need ≤ data.length then (s.fillAndCompress (data.take need)).absorbFromEmpty (data.drop need)
    else s.appendPartial data

/-- One byte pushed: the byte-at-a-time form of `update` (R167). It differs from `update` at most in the stale bytes
of `pending` (10_state.md R36). -/
def State.push (s : State) (b : Byte) : State :=
  let s := s.countBytes 1
  if s.pcount.val = 63 then s.fillAndCompress [b] else s.appendPartial [b]

/-- UPDATE (R165): absorbs the first `n` bytes of DATA; USAGE unless ACTIVE. -/
def execUpdate (n : Nat) (data : Word) (s : State) : Host.Outcome State Fault Refusal :=
  .next (s.run (· == .active) .usage (·.update (dataBytes data n)))

end Sys2Proof.Machine
end

