-- ==== Sys2Proof/Machine/Dispatch.lean ====
section
/-! DEFINITION. The meaning of each command (40_lifecycle.md rule R100), one arm per constructor of `Instr`. -/

namespace Sys2Proof.Machine

def exec (i : Instr) (s : State) : Host.Outcome State Fault Refusal :=
  match i with
  | .nop => Sys2Proof.Machine.execNop s
  | .init => Sys2Proof.Machine.execInit s
  | .update n data => Sys2Proof.Machine.execUpdate n data s
  | .final => Sys2Proof.Machine.execFinal s
  | .destroy => Sys2Proof.Machine.execDestroy s

end Sys2Proof.Machine
end

