-- ==== Sys2Proof/Machine/Serve.lean ====
section
/-! DEFINITION. Serving one transaction of the host (20_memory.md rule R65, 40_lifecycle.md rule R100). -/

namespace Sys2Proof.Machine

/-- One command: the decoded command's meaning, or ILLEGAL for a word that is not legal (R100, R201, R206). -/
def serveCommand (cmd data : Word) (s : State) : Host.Outcome State Fault Refusal :=
  match decode cmd data with
  | .ok i => exec i s
  | .error _ => .next (s.fail .illegal)

/-- One transaction. A command abandoned by a reset returns no response and has no effect: the state is the reset
state (70_reset_and_hazards.md R231). -/
def serve (r : Request) (s : State) : Host.Outcome State Fault Refusal :=
  match r with
  | .command cmd data => serveCommand cmd data s
  | .read ridx => .next (s.serveRead ridx)
  | .reset => .next s.serveReset
  | .abandoned _ _ => .next s.serveReset

/-- The oldest transaction of the host, or none: the block then holds its state (60_exceptions.md R216, log entry 4). -/
def serveNext (s : State) : Host.Outcome State Fault Refusal :=
  match s.queue with
  | [] => .next s
  | r :: rest => serve r { s with queue := rest }

/-- `s` with a command transaction put before every other one. -/
def State.issueFirst (s : State) (cmd data : Word) : State := { s with queue := .command cmd data :: s.queue }

end Sys2Proof.Machine
end

