-- ==== Sys2Proof/Machine/Step.lean ====
section
/-! DEFINITION. One step of the block: one whole transaction (20_memory.md rules R58, R60). -/

namespace Sys2Proof.Machine

/-- The block serves the host's oldest transaction. -/
def step (s : State) : Host.Outcome State Fault Refusal := serveNext s

/-- `s` with the instruction whose bits are `w`, numbered as the opcode table numbers them, as the transaction the
next step serves. The block fetches nothing: the host supplies each command (20_memory.md R63, log entry 5). -/
def State.withFetchWord (s : State) (nbits w : Nat) : State := s.issueFirst (tableCmd nbits w) (tableData nbits w)

end Sys2Proof.Machine
end

