-- ==== Sys2Proof/Machine/Assembler.lean ====
section
/-! DEFINITION. Host programs: the assembly syntax and its pseudo-instructions (30_encoding.md rules R78, R79) and the
shell's command sequence (20_memory.md rule R64), as the transactions they stand for. The block never sees this text:
`step` does not depend on this file. -/

namespace Sys2Proof.Machine

/-- The transaction that issues a command (R78); DATA is 0 where the command ignores it. -/
def issue (i : Instr) : Request := .command (encode i).1 (encode i).2

/-- A name or number after `READ` (R78, 20_memory.md R55). -/
inductive ReadName where
  | status
  | lenlo
  | lenhi
  | hash (j : Fin 8)
  | number (ridx : BitVec 4)
  deriving DecidableEq, Repr

/-- The read index of a name (20_memory.md R55). -/
def ReadName.ridx : ReadName → BitVec 4
  | .status => 0x0
  | .lenlo => 0x1
  | .lenhi => 0x2
  | .hash j => BitVec.ofNat 4 (8 + j.val)
  | .number r => r

/-- One line of assembly (R78, R79): `UPDATE n, data` is written with n in 0..4 alone, so no other n is a line; `word` is a command word written out, as the programs of 95_test_vectors.md have them. -/
inductive AsmLine where
  | nop
  | init
  | update (n : Fin (Config.updMax + 1)) (data : Word)
  | final
  | destroy
  | read (name : ReadName)
  | updb (b : Byte)
  | updw (w : Word)
  | bytes (bs : List Byte)
  | ascii (text : String)
  | digest
  | restart
  | word (cmd data : Word)
  deriving DecidableEq, Repr

/-- `BYTES`: `UPDATE 4` for each whole group of four bytes, then `UPDATE r` with the remaining bytes high and zeros
below (R79). -/
def bytesRequests : List Byte → List Request
  | [] => []
  | [b0] => [issue (.update 1 (be32 b0 0 0 0))]
  | [b0, b1] => [issue (.update 2 (be32 b0 b1 0 0))]
  | [b0, b1, b2] => [issue (.update 3 (be32 b0 b1 b2 0))]
  | b0 :: b1 :: b2 :: b3 :: rest => issue (.update 4 (be32 b0 b1 b2 b3)) :: bytesRequests rest

/-- `READ H0` ... `READ H7` (R79). -/
def readHashWords : List Request := (List.finRange 8).map fun j => .read (ReadName.hash j).ridx

/-- The bytes of an ASCII text, one a character (R79). DESIGN CHOICE, log entry 17: a character outside ASCII, of which R79
says nothing, stands for the low 8 bits of its code point. -/
def asciiBytes (text : String) : List Byte := text.toList.map fun c => BitVec.ofNat 8 c.toNat

/-- The transactions of one line (R78, R79). `UPDATE n, data` issues `data` as it is written (log entry 6). -/
def AsmLine.requests : AsmLine → List Request
  | .nop => [issue .nop]
  | .init => [issue .init]
  | .update n data => [issue (.update n.val data)]
  | .final => [issue .final]
  | .destroy => [issue .destroy]
  | .read name => [.read name.ridx]
  | .updb b => [issue (.update 1 (b ++ 0#24))]
  | .updw w => [issue (.update 4 w)]
  | .bytes bs => bytesRequests bs
  | .ascii text => bytesRequests (asciiBytes text)
  | .digest => issue .final :: readHashWords
  | .restart => [issue .destroy, issue .init]
  | .word cmd data => [.command cmd data]

/-- The first `k` chunks of 64 bytes of a byte list, the last one shorter where the list ends. -/
def chunksOf64 : Nat → List Byte → List (List Byte)
  | 0, _ => []
  | k + 1, bs => bs.take 64 :: chunksOf64 k (bs.drop 64)

/-- What the shell issues for one chunk: sixteen `UPDATE 4` for 64 bytes; for a shorter last chunk one for each whole
word and one with the remaining 0..3 bytes (20_memory.md R64). -/
def chunkRequests (chunk : List Byte) : List Request :=
  if chunk.length % 64 ≠ 0 ∧ chunk.length % 4 = 0 then bytesRequests chunk ++ [issue (.update 0 0)]
  else bytesRequests chunk

/-- What the shell issues for a message: INIT, its chunks, FINAL, READ H0..H7, DESTROY (20_memory.md R64). -/
def shellRequests (message : List Byte) : List Request :=
  issue .init :: (chunksOf64 ((message.length + 63) / 64) message).flatMap chunkRequests ++
    issue .final :: readHashWords ++ [issue .destroy]

end Sys2Proof.Machine
end

