-- ==== Sys2Proof/Machine/Hosts.lean ====
section
/-! DEFINITION. Several hosts of one instance (20_memory.md rule R62): their transactions reach the block in some
interleaving of whole transactions, each host's own in order (log entry 7). -/

namespace Sys2Proof.Machine

/-- The queue that an arbiter's choices make of the hosts' lists: at each choice `k`, host `k`'s next transaction (no
transaction where it has none left); after the last choice the rest, host by host. Every interleaving is some choice. -/
def arbitrate : List Nat → List (List Request) → List Request
  | [], hosts => hosts.flatten
  | k :: choices, hosts =>
    match hosts[k]? with
    | some (r :: rest) => r :: arbitrate choices (hosts.set k rest)
    | _ => arbitrate choices hosts

end Sys2Proof.Machine
end

