-- ==== Sys2Proof/Machine/Platform.lean ====
section
/-! DEFINITION. A platform of any number of instances (60_exceptions.md rule R214): each has its own state and channels,
and the only thing shared is the constant ROM, which no state holds. -/

namespace Sys2Proof.Machine

/-- One step of instance `k`; no instance `k`, no change. -/
def stepInstance (k : Nat) (instances : List State) : Host.Outcome (List State) Fault Refusal :=
  match instances[k]? with
  | none => .next instances
  | some s =>
    match step s with
    | .next t => .next (instances.set k t)
    | .fault r => .fault r
    | .refused r => .refused r

/-- Steps of the instances named, in that order. -/
def stepInstances : List Nat → List State → Host.Outcome (List State) Fault Refusal
  | [], instances => .next instances
  | k :: ks, instances =>
    match stepInstance k instances with
    | .next instances' => stepInstances ks instances'
    | .fault r => .fault r
    | .refused r => .refused r

end Sys2Proof.Machine
end

