-- ==== Sys2Proof/Machine/Run.lean ====
section
/-! DEFINITION. A run of a host program on one instance, its end and its observation (20_memory.md rule R66). -/

namespace Sys2Proof.Machine

/-- Transactions served one after another. -/
def serveAll : List Request → State → Host.Outcome State Fault Refusal
  | [], s => .next s
  | r :: rs, s =>
    match serve r s with
    | .next t => serveAll rs t
    | .fault e => .fault e
    | .refused e => .refused e

/-- A command that returns its response; one abandoned by a reset returns none (70_reset_and_hazards.md R231). -/
def Request.isCommand : Request → Bool
  | .command _ _ => true
  | .read _ => false
  | .reset => false
  | .abandoned _ _ => false

/-- A program up to its last command, that command included; nothing of a program without one. -/
def throughLastCommand : List Request → List Request
  | [] => []
  | r :: rs => if (r :: rs).any Request.isCommand then r :: throughLastCommand rs else []

/-- What a program holds after its last command. -/
def afterLastCommand (program : List Request) : List Request := program.drop (throughLastCommand program).length

/-- The run is over: "the host's last command has returned its response", so no command waits (20_memory.md R66). -/
def State.runEnded (s : State) : Bool := !s.queue.any Request.isCommand

/-- The observation of a run (20_memory.md R66). -/
structure Observation where
  /-- "the list of responses and read results in order" -/
  results : List Reply
  /-- "the state after the last command", nothing waiting -/
  state : State
  deriving DecidableEq, Repr

/-- The observation of the run of `program` from the start state `s` (20_memory.md R66). DESIGN CHOICE, log entry 16: the
results of reads after the last command, which belong to the program's "commands and reads", are counted in. -/
def State.observe (s : State) (program : List Request) : Host.Outcome Observation Fault Refusal :=
  match serveAll (throughLastCommand program) { s with queue := [], replies := [] } with
  | .next t =>
    match serveAll (afterLastCommand program) t with
    | .next u => .next { results := u.replies, state := { t with replies := s.replies ++ t.replies } }
    | .fault e => .fault e
    | .refused e => .refused e
  | .fault e => .fault e
  | .refused e => .refused e

end Sys2Proof.Machine
end

