-- ==== Sys2Proof/Safety.lean ====
section
/-! DEFINITION. The terms claims are stated in: when two states are the same to every observer (10_state.md R36), what a
message's padding is (43_finalize.md R186), what a state that has absorbed a message is (42_update.md R168), and the
invariant between commands (10_state.md R35). -/

namespace Sys2Proof.Machine

/-- `pending[0 .. pcount)`, the valid bytes (10_state.md R22). -/
def State.valid (s : State) : List Byte := s.pending.toList.take s.pcount.val

/-- `≈`: equality of `(lc, err, h, pending[0 .. pcount), pcount, total)` (10_state.md R36, 90_conflicts.md C1). -/
def State.ObsEq (s t : State) : Prop :=
  s.lc = t.lc ∧ s.err = t.err ∧ s.h = t.h ∧ s.valid = t.valid ∧ s.pcount = t.pcount ∧ s.total = t.total

/-- `m ++ [0x80] ++ 0^k ++ be64bytes(8n)`, `k = (55 − n) mod 64` (43_finalize.md R186); the length field is
truncated to 64 bits (R181). -/
def padded (m : List Byte) : List Byte :=
  m ++ [0x80] ++ List.replicate ((119 - m.length % 64) % 64) 0 ++ be64bytes (BitVec.ofNat 64 (8 * m.length))

/-- The bytes of blocks, in order. -/
def blockBytes (bs : List Block) : List Byte := bs.flatMap (·.toList)

/-- `h` is the result of compressing, from `IV`, the 64-byte blocks of `bytes` in order. -/
def HashOf (h : HashWords) (bytes : List Byte) : Prop :=
  ∃ bs : List Block, blockBytes bs = bytes ∧ h = bs.foldl compress iv

/-- `h` is the digest of the message `m`: its padding compressed from `IV` (43_finalize.md R183, R186). -/
def IsDigest (h : HashWords) (m : List Byte) : Prop := HashOf h (padded m)

/-- What the HashState is after the bytes `m` were absorbed since INIT (42_update.md R168). -/
def State.Absorbed (s : State) (m : List Byte) : Prop :=
  s.total = BitVec.ofNat 64 m.length ∧ s.pcount.val = m.length % 64 ∧ s.valid = m.drop (64 * (m.length / 64)) ∧
    HashOf s.h (m.take (64 * (m.length / 64)))

/-- The invariant between commands (10_state.md R35; `0 <= pcount <= 63` is the type of `pcount`). In ACTIVE it says
more than R35: the state is that of some message absorbed (42_update.md R168). -/
def State.Inv (s : State) : Prop :=
  (s.lc = .idle → s.h = Vector.replicate 8 0 ∧ s.pending = zeroBlock ∧ s.pcount = 0 ∧ s.total = 0) ∧
  (s.lc = .active → s.pcount.val = s.total.toNat % 64 ∧ ∃ m, s.Absorbed m) ∧
  (s.lc = .final → s.pcount = 0 ∧ ∃ m, s.total = BitVec.ofNat 64 m.length ∧ IsDigest s.h m)

/-- The result of a legal command in each lifecycle state: the precondition and failure code of 40_lifecycle.md R100's
table (60_exceptions.md R202, R203). -/
def lifecycleResult : Instr → Lc → ErrCode
  | .nop, _ => .ok
  | .init, .idle => .ok
  | .init, .active => .alloc
  | .init, .final => .alloc
  | .update _ _, .idle => .usage
  | .update _ _, .active => .ok
  | .update _ _, .final => .usage
  | .final, .idle => .usage
  | .final, .active => .ok
  | .final, .final => .usage
  | .destroy, .idle => .usage
  | .destroy, .active => .ok
  | .destroy, .final => .ok

/-- Commands run one after another, each by its meaning. -/
def execAll : List Instr → State → Host.Outcome State Fault Refusal
  | [], s => .next s
  | i :: is, s =>
    match exec i s with
    | .next t => execAll is t
    | .fault r => .fault r
    | .refused r => .refused r

/-- UPDATE commands with their operands. -/
def updates (ops : List (Nat × Word)) : List Instr := ops.map fun o => .update o.1 o.2

/-- The bytes UPDATE commands with these operands carry, in order (30_encoding.md R74). -/
def carried (ops : List (Nat × Word)) : List Byte := ops.flatMap fun o => dataBytes o.2 o.1

/-- `k` steps, one after another. -/
def stepMany : Nat → State → Host.Outcome State Fault Refusal
  | 0, s => .next s
  | k + 1, s =>
    match step s with
    | .next t => stepMany k t
    | .fault e => .fault e
    | .refused e => .refused e

/-- `zs` interleaves the lists of `hosts`: each of their transactions once, each host's own in order (20_memory.md R62). -/
inductive Interleaving : List (List Request) → List Request → Prop where
  | done (hosts : List (List Request)) (h : ∀ l ∈ hosts, l = []) : Interleaving hosts []
  | pick (hosts : List (List Request)) (k : Nat) (r : Request) (rest zs : List Request)
      (h : hosts[k]? = some (r :: rest)) (hz : Interleaving (hosts.set k rest) zs) : Interleaving hosts (r :: zs)

end Sys2Proof.Machine
end

