-- ==== Sys2Proof/Certificates/Slice0/Obligations.lean ====
section
/-! DEFINITION. The statements for the provers. Each docstring names the rule of spec/ it formalises. In "`exec i s`
answers `.next t` with `t = { s with … }`" the right side is the whole next state, so it is the completion, the result
and the frame of the instruction at once. -/

open Sys2Proof Sys2Proof.Machine

/-! ## Reset -/

/-- 70_reset_and_hazards.md R230 (values: 10_state.md R34): a reset, from any state, sets every piece of state to its reset
value, STATUS and every read index read 0, nothing is returned; power-on (`State.reset`) is that same state. The ROM is no
part of the state: INIT after it still loads IV. -/
def Obligations.ResetSetsEveryFieldToItsResetValue : Prop :=
  ∀ (s : State) (rest : List Request), s.queue = .reset :: rest →
    ∃ t, step s = .next t ∧ t.lc = .idle ∧ t.err = .ok ∧ (∀ j : Fin 8, t.h[j] = 0) ∧ (∀ j : Fin 64, t.pending[j] = 0) ∧
      t.pcount = 0 ∧ t.total = 0 ∧ t.status = 0x00000000 ∧ (∀ r, t.readWord r = 0x00000000) ∧ t.replies = s.replies ∧
      t = { State.reset with queue := rest, replies := s.replies, blocks := s.blocks } ∧
      ∃ u, exec .init t = .next u ∧ u.h = iv

/-- 70_reset_and_hazards.md R231: a command in flight when reset is asserted returns no response and has no effect; the state
is the reset state; what the host issued after it is served after it. -/
def Obligations.ResetAbandonsTheCommandInFlight : Prop :=
  ∀ (s : State) (cmd data : Word) (rest : List Request), s.queue = .abandoned cmd data :: rest →
    step s = .next { State.reset with queue := rest, replies := s.replies, blocks := s.blocks }

/-! ## STATUS and the read space -/

/-- 10_state.md R27: the fields of STATUS, its reserved bits, its formula, its reset value; it is read at index 0 and is the
response of every command. -/
def Obligations.StatusWordHasTheStatedFields : Prop :=
  (∀ s : State, s.status.extractLsb' 14 18 = 0 ∧ (s.status.extractLsb' 8 6).toNat = s.pcount.val ∧
    (s.status.extractLsb' 4 4).toNat = s.err.code ∧ s.status.extractLsb' 2 2 = 0 ∧
    (s.status.extractLsb' 0 2).toNat = s.lc.code ∧ s.status.toNat = s.pcount.val * 256 + s.err.code * 16 + s.lc.code ∧
    s.err.code ≤ 3 ∧ s.lc.code ≤ 2 ∧ s.readWord 0x0 = s.status) ∧
  State.reset.status = 0x00000000 ∧
  (∀ (s : State) (cmd data : Word), ∃ t, serveCommand cmd data s = .next t ∧ t.replies = s.replies ++ [.status t.status])

/-- 20_memory.md R55: the table of the read space; between commands (in a state that meets the invariant) H0..H7 are the
digest in FINAL, the chaining value after the last compression in ACTIVE, and 0 in IDLE. -/
def Obligations.ReadSpaceMapsTheStatedWords : Prop :=
  (∀ s : State, s.readWord 0x0 = s.status ∧ s.readWord 0x1 = s.total.extractLsb' 0 32 ∧
    s.readWord 0x2 = s.total.extractLsb' 32 32 ∧ (∀ r : BitVec 4, 0x3 ≤ r.toNat → r.toNat ≤ 0x7 → s.readWord r = 0) ∧
    ∀ j : Fin 8, s.readWord (BitVec.ofNat 4 (8 + j.val)) = s.h[j]) ∧
  (∀ s : State, s.Inv → ∃ h : HashWords, (∀ j : Fin 8, s.readWord (BitVec.ofNat 4 (8 + j.val)) = h[j]) ∧
    (s.lc = .idle → ∀ j : Fin 8, h[j] = 0) ∧
    (s.lc = .active → ∃ m, s.Absorbed m ∧ HashOf h (m.take (64 * (m.length / 64)))) ∧
    (s.lc = .final → ∃ m, s.total = BitVec.ofNat 64 m.length ∧ IsDigest h m))

/-- 20_memory.md R56 (and 30_encoding.md R77): any number of reads, of any of the 16 indices, leave every field but the
record of replies as it was, and each returns the word the first state holds at its index; what an index reads changes
by a command or a reset only, so no index is written through the read channel. -/
def Obligations.ReadsHaveNoSideEffect : Prop :=
  (∀ (s : State) (rs : List (BitVec 4)) (rest : List Request), s.queue = rs.map .read ++ rest →
    stepMany rs.length s =
      .next { s with queue := rest, replies := s.replies ++ rs.map fun r => .rdata (s.readWord r) }) ∧
  (∀ (s t : State) (r : BitVec 4), step s = .next t → t.readWord r ≠ s.readWord r →
    ∃ rest, (∃ cmd data, s.queue = .command cmd data :: rest) ∨ s.queue = .reset :: rest ∨
      ∃ cmd data, s.queue = .abandoned cmd data :: rest)

/-! ## Encoding -/

/-- 30_encoding.md R73: the legality condition, the nine legal words, and what an illegal word does: ILLEGAL, and nothing
else changes but the response. -/
def Obligations.ExactlyNineCommandWordsAreLegal : Prop :=
  (∀ cmd : Word, legal cmd = true ↔
    cmd.toNat / 2 ^ 24 ≤ 0x04 ∧ cmd.toNat / 2 ^ 3 % 2 ^ 21 = 0 ∧
      (if cmd.toNat / 2 ^ 24 = 0x02 then cmd.toNat % 2 ^ 3 ≤ 4 else cmd.toNat % 2 ^ 3 = 0)) ∧
  (∀ cmd : Word, legal cmd = true ↔
    cmd ∈ [0x00000000#32, 0x01000000#32, 0x02000000#32, 0x02000001#32, 0x02000002#32, 0x02000003#32, 0x02000004#32,
      0x03000000#32, 0x04000000#32]) ∧
  (∀ (cmd data : Word) (s : State), legal cmd = false →
    ∃ t, serveCommand cmd data s = .next t ∧
      t = { s with err := .illegal, replies := s.replies ++ [.status t.status] })

/-- 30_encoding.md R75: an illegal word decodes to no command; a legal word to the command of its opcode, UPDATE with
N = CMD[2:0]. -/
def Obligations.DecodeFollowsTheOpcodeMap : Prop :=
  ∀ cmd data : Word,
    (legal cmd = false → ∃ e, decode cmd data = .error e) ∧
    (legal cmd = true →
      (cmd.toNat / 2 ^ 24 = 0x00 ∧ decode cmd data = .ok .nop) ∨
      (cmd.toNat / 2 ^ 24 = 0x01 ∧ decode cmd data = .ok .init) ∨
      (cmd.toNat / 2 ^ 24 = 0x02 ∧ decode cmd data = .ok (.update (cmd.toNat % 2 ^ 3) data)) ∨
      (cmd.toNat / 2 ^ 24 = 0x03 ∧ decode cmd data = .ok .final) ∨
      (cmd.toNat / 2 ^ 24 = 0x04 ∧ decode cmd data = .ok .destroy))

/-- Every well-formed command, with every operand value, is what its encoding decodes to. -/
def Obligations.DecodeOfEncodeIsTheCommand : Prop :=
  ∀ i : Instr, i.wellFormed = true → decode (encode i).1 (encode i).2 = .ok i

/-- What the decoder answers is well-formed, and its encoding is the command word decoded, and for UPDATE the DATA word. -/
def Obligations.EncodeOfDecodeIsTheCommandWord : Prop :=
  ∀ (cmd data : Word) (i : Instr), decode cmd data = .ok i →
    i.wellFormed = true ∧ (encode i).1 = cmd ∧ ∀ n d, i = .update n d → (encode i).2 = data

/-- A few words written out from 30_encoding.md R71, R72 and 95_test_vectors.md L2-6, decoded. -/
def Obligations.SpecWordsDecodeAsStated : Prop :=
  decode 0x00000000 0 = .ok .nop ∧ decode 0x01000000 0 = .ok .init ∧ decode 0x02000000 7 = .ok (.update 0 7) ∧
  decode 0b00000010_000000000000000000000_100#32 0x61626364 = .ok (.update 4 0x61626364) ∧ decode 0x03000000 0 = .ok .final ∧
  decode 0x04000000 0 = .ok .destroy ∧ decode 0x02000005 0 = .error .countTooLarge ∧
  decode 0x02000100 0 = .error .reservedBits ∧ decode 0x03000001 0 = .error .countNotZero ∧
  decode 0x05000000 0 = .error .reservedOpcode

/-- 30_encoding.md R74, with 20_memory.md R54: the count is N = CMD[2:0]; UPDATE's operand is the first N bytes of DATA, most
significant first, so four of them are the big-endian word they form; the other bytes of DATA, and all of it for the other
commands, make no difference. -/
def Obligations.OperandIsTheFirstBytesOfData : Prop :=
  (∀ (cmd data d : Word) (n : Nat), decode cmd data = .ok (.update n d) → n = cmd.toNat % 2 ^ 3 ∧ d = data) ∧
  (∀ data : Word, ∃ b0 b1 b2 b3, dataBytes data 4 = [b0, b1, b2, b3] ∧ be32 b0 b1 b2 b3 = data) ∧
  (∀ (data : Word) (n i : Nat), n ≤ 4 → i < n →
    (dataBytes data n).length = n ∧ ((dataBytes data n).getD i 0).toNat = data.toNat / 2 ^ (24 - 8 * i) % 2 ^ 8) ∧
  (∀ (n : Nat) (d d' : Word) (s : State), n ≤ 4 → d.toNat / 2 ^ (32 - 8 * n) = d'.toNat / 2 ^ (32 - 8 * n) →
    exec (.update n d) s = exec (.update n d') s) ∧
  (∀ (cmd d d' : Word) (s : State), cmd.toNat / 2 ^ 24 ≠ 0x02 → serveCommand cmd d s = serveCommand cmd d' s)

/-! ## The step -/

/-- 40_lifecycle.md R100: a command whose words decode to `i` is `i`'s meaning, run with the command taken off the host's
list; an undecodable one fails ILLEGAL. The third clause is the model's own choice, log entry 5: `withFetchWord` places a
command before all others in the host's list, with the table word as command word and DATA 0. -/
def Obligations.StepRunsTheDecodedCommand : Prop :=
  (∀ (s : State) (cmd data : Word) (rest : List Request) (i : Instr), s.queue = .command cmd data :: rest →
    decode cmd data = .ok i → step s = exec i { s with queue := rest }) ∧
  (∀ (s : State) (cmd data : Word) (rest : List Request) (e : Illegal), s.queue = .command cmd data :: rest →
    decode cmd data = .error e → step s = .next (({ s with queue := rest } : State).fail .illegal)) ∧
  (∀ (s : State) (w : Nat) (i : Instr), w < 2 ^ 32 → decodeTableWord 32 w = some i →
    step (s.withFetchWord 32 w) = exec i s)

/-- With nothing issued a step holds the whole state (60_exceptions.md section 4). That an idle block's step answers at all
is the model's own choice, log entry 4. -/
def Obligations.IdleBlockHoldsItsState : Prop :=
  ∀ s : State, s.queue = [] → step s = .next s

/-- 60_exceptions.md R216: between commands the block holds its state: where a step changes any of it, the host had issued a
command or a reset. -/
def Obligations.OnlyACommandOrResetChangesTheBlock : Prop :=
  ∀ s t : State, step s = .next t → ¬ (t.ObsEq s ∧ t.pending = s.pending) →
    ∃ rest, (∃ cmd data, s.queue = .command cmd data :: rest) ∨ s.queue = .reset :: rest ∨
      ∃ cmd data, s.queue = .abandoned cmd data :: rest

/-- 60_exceptions.md R207 (with R204): no error and no data ends a run: from every state a step answers a next state.
That a step with nothing issued does is the model's own choice, log entry 4. -/
def Obligations.EveryStepAnswersANextState : Prop :=
  ∀ s : State, ∃ t, step s = .next t

/-- 20_memory.md R60: transactions take effect one at a time in the order issued, each reading the state the one before it
left, and none depends on those the host has yet to issue. -/
def Obligations.TransactionsTakeEffectInIssueOrder : Prop :=
  ∀ (s : State) (rs rest : List Request), s.queue = rs ++ rest →
    stepMany rs.length s = serveAll rs { s with queue := rest }

/-- 60_exceptions.md R206 (codes: R200 to R203): one code per command. Legality first, then the command's one lifecycle
precondition, else OK. -/
def Obligations.ErrorPriorityIsLegalityThenLifecycle : Prop :=
  ∀ (cmd data : Word) (s : State), ∃ t, serveCommand cmd data s = .next t ∧
    (legal cmd = false → t.err = .illegal) ∧
    ∀ i, decode cmd data = .ok i → t.err = lifecycleResult i s.lc

/-- 60_exceptions.md R205: a failed command writes `err`, answers STATUS with it, and changes nothing else; an ACTIVE
context stays usable after it. -/
def Obligations.FailedCommandWritesErrAndNothingElse : Prop :=
  ∀ (cmd data : Word) (s t : State), serveCommand cmd data s = .next t → t.err ≠ .ok →
    t = { s with err := t.err, replies := s.replies ++ [.status t.status] } ∧
    (s.lc = .active → ∀ n d, n ≤ 4 → ∃ u, exec (.update n d) t = .next u ∧ u.err = .ok)

/-- 10_state.md R26: every command writes `err`, so what it held before makes no difference (it is not sticky), and the four
results have the stated codes in a 4-bit field; a command that succeeds leaves 0. -/
def Obligations.ErrIsTheResultOfTheLastCommand : Prop :=
  (∀ (cmd data : Word) (s : State) (e : ErrCode), serveCommand cmd data { s with err := e } = serveCommand cmd data s) ∧
  ErrCode.ok.code = 0 ∧ ErrCode.illegal.code = 1 ∧ ErrCode.usage.code = 2 ∧ ErrCode.alloc.code = 3 ∧
  (∀ e : ErrCode, e.code < 2 ^ 4) ∧
  (∀ (cmd data : Word) (s : State) (i : Instr), decode cmd data = .ok i → lifecycleResult i s.lc = .ok →
    ∃ t, serveCommand cmd data s = .next t ∧ t.err.code = 0)

/-- 10_state.md R25: the lifecycle codes, the six listed transitions, each taken, and no other: a command that succeeds takes
one of them, a command that fails leaves `lc`. -/
def Obligations.LifecycleTransitionsAreOnlyTheListed : Prop :=
  (Lc.idle.code = 0 ∧ Lc.active.code = 1 ∧ Lc.final.code = 2 ∧ ∀ l : Lc, l.code ≠ 3) ∧
  (∀ (cmd data : Word) (s t : State), serveCommand cmd data s = .next t →
    (t.err ≠ .ok → t.lc = s.lc) ∧
    (t.err = .ok → ∃ i, decode cmd data = .ok i ∧
      ((i = .nop ∧ t.lc = s.lc) ∨ (i = .init ∧ s.lc = .idle ∧ t.lc = .active) ∨
       ((∃ n d, i = .update n d) ∧ s.lc = .active ∧ t.lc = .active) ∨ (i = .final ∧ s.lc = .active ∧ t.lc = .final) ∨
       (i = .destroy ∧ (s.lc = .active ∨ s.lc = .final) ∧ t.lc = .idle)))) ∧
  (∀ (s : State) (i : Instr), i.wellFormed = true →
    (i = .nop ∨ (i = .init ∧ s.lc = .idle) ∨ ((∃ n d, i = .update n d) ∧ s.lc = .active) ∨ (i = .final ∧ s.lc = .active) ∨
      (i = .destroy ∧ s.lc ≠ .idle)) → ∃ t, serveCommand (encode i).1 (encode i).2 s = .next t ∧ t.err = .ok)

/-! ## The lifecycle commands -/

/-- 40_lifecycle.md R101: NOP, in every lifecycle state, clears ERR, returns STATUS and changes nothing else; DATA is
ignored, and no other word is NOP. -/
def Obligations.NopOnlyClearsErrAndReturnsStatus : Prop :=
  (∀ s : State, ∃ t, exec .nop s = .next t ∧
    t = { s with err := .ok, replies := s.replies ++ [.status t.status] } ∧
    t.status.toNat = s.pcount.val * 256 + s.lc.code) ∧
  (∀ cmd data : Word, decode cmd data = .ok .nop ↔ cmd = 0x00000000)

/-- 40_lifecycle.md R103: INIT from IDLE loads IV and zeroes `pcount` and `total`, `pending` untouched, and answers STATUS 1;
otherwise it fails ALLOC and changes nothing but ERR; no other command leaves IDLE. -/
def Obligations.InitCreatesAFreshHashState : Prop :=
  (∀ cmd data : Word, decode cmd data = .ok .init ↔ cmd = 0x01000000) ∧
  (∀ s : State, s.lc = .idle → ∃ t, exec .init s = .next t ∧ t.status = 0x00000001 ∧
    t = { s with h := iv, pcount := 0, total := 0, lc := .active, err := .ok,
                 replies := s.replies ++ [.status t.status] }) ∧
  (∀ s : State, s.lc ≠ .idle → ∃ t, exec .init s = .next t ∧
    t = { s with err := .alloc, replies := s.replies ++ [.status t.status] }) ∧
  (∀ (s t : State) (i : Instr), s.lc = .idle → exec i s = .next t → t.lc ≠ .idle → i = .init)

/-- 40_lifecycle.md R106: DESTROY, from ACTIVE or FINAL with anything absorbed, zeroes `h`, `pending`, `pcount` and `total`,
goes to IDLE and answers STATUS 0, and the state is then the reset state; in IDLE it fails USAGE. -/
def Obligations.DestroyReleasesAndClearsTheState : Prop :=
  (∀ cmd data : Word, decode cmd data = .ok .destroy ↔ cmd = 0x04000000) ∧
  (∀ s : State, s.lc ≠ .idle → ∃ t, exec .destroy s = .next t ∧ t.status = 0x00000000 ∧
    t = { State.reset with queue := s.queue, replies := s.replies ++ [.status t.status], blocks := s.blocks }) ∧
  (∀ s : State, s.lc = .idle → ∃ t, exec .destroy s = .next t ∧
    t = { s with err := .usage, replies := s.replies ++ [.status t.status] })

/-! ## Bit functions -/

/-- 41_compression.md R121: bit `k` of `rotr(x, n)` is bit `(k + n) mod 32` of `x`. -/
def Obligations.RotrRotatesRight : Prop :=
  ∀ (x : Word) (n k : Nat), 0 < n → n < 32 → k < 32 → (rotr x n).getLsbD k = x.getLsbD ((k + n) % 32)

/-- 41_compression.md R122: `x >> n = floor(x / 2^n)`, the top `n` bits 0. -/
def Obligations.ShiftRightIsLogical : Prop :=
  ∀ (x : Word) (n : Nat), n = 3 ∨ n = 10 →
    (shr x n).toNat = x.toNat / 2 ^ n ∧ ∀ k, 32 - n ≤ k → (shr x n).getLsbD k = false

/-- 41_compression.md R123 to R126: each bit of the four mixing functions is the exclusive or of three bits of `x`, the third
0 above the word for the two shifts. -/
def Obligations.SigmaFunctionsXorTheStatedBits : Prop :=
  ∀ (x : Word) (k : Nat), k < 32 →
    (bigSigma0 x).getLsbD k =
      ((x.getLsbD ((k + 2) % 32)).xor (x.getLsbD ((k + 13) % 32))).xor (x.getLsbD ((k + 22) % 32)) ∧
    (bigSigma1 x).getLsbD k =
      ((x.getLsbD ((k + 6) % 32)).xor (x.getLsbD ((k + 11) % 32))).xor (x.getLsbD ((k + 25) % 32)) ∧
    (smallSigma0 x).getLsbD k =
      ((x.getLsbD ((k + 7) % 32)).xor (x.getLsbD ((k + 18) % 32))).xor (decide (k + 3 < 32) && x.getLsbD (k + 3)) ∧
    (smallSigma1 x).getLsbD k =
      ((x.getLsbD ((k + 17) % 32)).xor (x.getLsbD ((k + 19) % 32))).xor (decide (k + 10 < 32) && x.getLsbD (k + 10))

/-- 41_compression.md R127, R128: each bit of Ch is f's where e's is 1 and g's where it is 0; each bit of Maj is the
majority of the three. -/
def Obligations.ChSelectsAndMajIsTheMajority : Prop :=
  ∀ (x y z : Word) (k : Nat), k < 32 →
    (ch x y z).getLsbD k = (if x.getLsbD k then y.getLsbD k else z.getLsbD k) ∧
    ((maj x y z).getLsbD k = true ↔
      2 ≤ (x.getLsbD k).toNat + (y.getLsbD k).toNat + (z.getLsbD k).toNat)

/-! ## The compression function -/

/-- 41_compression.md R129, with 20_memory.md R51: 64 words; the first 16 are the block's bytes as big-endian words; each
later one is `W[t-16] + σ0(W[t-15]) + W[t-7] + σ1(W[t-2])` modulo 2^32. -/
def Obligations.ScheduleObeysItsRecurrence : Prop :=
  ∀ b : Block, (schedule b).length = 64 ∧
    (∀ t, (h : t < 16) → (schedWord (schedule b) t).toNat =
      b[4 * t].toNat * 2 ^ 24 + b[4 * t + 1].toNat * 2 ^ 16 + b[4 * t + 2].toNat * 2 ^ 8 + b[4 * t + 3].toNat) ∧
    (∀ t, 16 ≤ t → t < 64 → schedWord (schedule b) t =
      schedWord (schedule b) (t - 16) + smallSigma0 (schedWord (schedule b) (t - 15)) +
        schedWord (schedule b) (t - 7) + smallSigma1 (schedWord (schedule b) (t - 2)))

/-- 41_compression.md R130: one round, all eight new values from the old ones, every sum modulo 2^32. -/
def Obligations.RoundMixesTheOldValues : Prop :=
  ∀ (w : List Word) (a b c d e f g hh : Word) (i : Nat),
    let t1 := BitVec.ofNat 32 (hh.toNat + (bigSigma1 e).toNat + (ch e f g).toNat + (roundConstant i).toNat +
      (schedWord w i).toNat)
    let t2 := BitVec.ofNat 32 ((bigSigma0 a).toNat + (maj a b c).toNat)
    roundStep w ⟨a, b, c, d, e, f, g, hh⟩ i = ⟨t1 + t2, a, b, c, d + t1, e, f, g⟩

/-- 41_compression.md R131, R132 (and the sums of R133): the working variables start as `h[0..7]`, go through rounds 0 to 63 in order, each
reading what the one before wrote, and each hash word is then incremented, modulo 2^32, by its working variable. -/
def Obligations.CompressRunsSixtyFourRoundsAndAccumulates : Prop :=
  ∀ (h : HashWords) (b : Block), ∃ v : Nat → Work,
    v 0 = ⟨h[0], h[1], h[2], h[3], h[4], h[5], h[6], h[7]⟩ ∧
    (∀ i, i < 64 → v (i + 1) = roundStep (schedule b) (v i) i) ∧
    (∀ j : Fin 8, ((compress h b)[j]).toNat = (h[j].toNat +
      ((#v[(v 64).a, (v 64).b, (v 64).c, (v 64).d, (v 64).e, (v 64).f, (v 64).g, (v 64).hh] : HashWords)[j]).toNat) % 2 ^ 32)

/-- 10_state.md R30, R31: IV and K are the first 32 bits of the fractional parts of the square roots of the first eight
primes and of the cube roots of the first 64 primes (an independent reading of the tables). -/
def Obligations.RomHoldsTheRootsOfThePrimes : Prop :=
  let primes := [2, 3, 5, 7, 11, 13, 17, 19, 23, 29, 31, 37, 41, 43, 47, 53, 59, 61, 67, 71, 73, 79, 83, 89, 97, 101, 103,
    107, 109, 113, 127, 131] ++ [137, 139, 149, 151, 157, 163, 167, 173, 179, 181, 191, 193, 197, 199, 211, 223, 227, 229,
    233, 239, 241, 251, 257, 263, 269, 271, 277, 281, 283, 293, 307, 311]
  (∀ j : Fin 8, ∃ a < 5, (a * 2 ^ 32 + iv[j].toNat) ^ 2 ≤ primes.getD j.val 0 * 2 ^ 64 ∧
    primes.getD j.val 0 * 2 ^ 64 < (a * 2 ^ 32 + iv[j].toNat + 1) ^ 2) ∧
  (∀ i < 64, ∃ a < 7, (a * 2 ^ 32 + (roundConstant i).toNat) ^ 3 ≤ primes.getD i 0 * 2 ^ 96 ∧
    primes.getD i 0 * 2 ^ 96 < (a * 2 ^ 32 + (roundConstant i).toNat + 1) ^ 3)

/-! ## Byte orders -/

/-- 20_memory.md R53 (with the bytes of 00_scope.md R12): the length field and the digest bytes are big-endian: read as a base-256
number, first byte most significant, they are the value; the digest is the words h[0] to h[7] in order. -/
def Obligations.LengthFieldAndDigestBytesAreBigEndian : Prop :=
  (∀ v : BitVec 64, (be64bytes v).length = 8 ∧ (be64bytes v).foldl (fun n b => n * 256 + b.toNat) 0 = v.toNat) ∧
  (∀ w : Word, (be32bytes w).length = 4 ∧ (be32bytes w).foldl (fun n b => n * 256 + b.toNat) 0 = w.toNat) ∧
  (∀ h : HashWords, digestBytes h = be32bytes h[0] ++ be32bytes h[1] ++ be32bytes h[2] ++ be32bytes h[3] ++
    be32bytes h[4] ++ be32bytes h[5] ++ be32bytes h[6] ++ be32bytes h[7])

/-! ## The update pipeline -/

/-- 42_update.md R165: UPDATE in ACTIVE, in the reduced form R165 derives: without a full block the bytes are appended;
otherwise they fill the block, it is compressed, and the rest start the new one. It fails USAGE outside ACTIVE, and ILLEGAL
for N = 5, 6, 7 or a non-zero reserved field. -/
def Obligations.UpdateAbsorbsTheFirstBytesOfData : Prop :=
  (∀ (s : State) (n : Nat) (data : Word), s.lc = .active → n ≤ 4 → s.pcount.val + n < 64 →
    ∃ t, exec (.update n data) s = .next t ∧ t.pcount.val = s.pcount.val + n ∧
      t = { s with total := s.total + BitVec.ofNat 64 n, pending := writeBytes s.pending s.pcount.val (dataBytes data n),
                   pcount := t.pcount, err := .ok, replies := s.replies ++ [.status t.status] }) ∧
  (∀ (s : State) (n : Nat) (data : Word), s.lc = .active → n ≤ 4 → 64 ≤ s.pcount.val + n →
    let k := 64 - s.pcount.val
    let full := writeBytes s.pending s.pcount.val ((dataBytes data n).take k)
    ∃ t, exec (.update n data) s = .next t ∧ t.pcount.val = n - k ∧
      t = { s with total := s.total + BitVec.ofNat 64 n, h := compress s.h full,
                   pending := writeBytes full 0 ((dataBytes data n).drop k), pcount := t.pcount, err := .ok,
                   replies := s.replies ++ [.status t.status], blocks := s.blocks ++ [full] }) ∧
  (∀ (s : State) (n : Nat) (data : Word), s.lc ≠ .active → ∃ t, exec (.update n data) s = .next t ∧
    t = { s with err := .usage, replies := s.replies ++ [.status t.status] }) ∧
  (∀ (s : State) (cmd data : Word), opcField cmd = 0x02 → 4 < (nField cmd).toNat ∨ rsvField cmd ≠ 0 →
    ∃ t, serveCommand cmd data s = .next t ∧
      t = { s with err := .illegal, replies := s.replies ++ [.status t.status] })

/-- The frame of UPDATE in the block buffer, byte by byte (10_state.md R22, 42_update.md R165): only the bytes at the fill
count, and at the front when the block filled, are written, each with its byte of DATA. -/
def Obligations.UpdateWritesOnlyItsOwnBytesOfPending : Prop :=
  ∀ (s : State) (n : Nat) (data : Word), s.lc = .active → n ≤ 4 → ∃ t, exec (.update n data) s = .next t ∧
    ∀ j : Fin 64,
      (s.pcount.val + n < 64 → t.pending[j] =
        if s.pcount.val ≤ j.val ∧ j.val < s.pcount.val + n then (dataBytes data n).getD (j.val - s.pcount.val) 0
        else s.pending[j]) ∧
      (64 ≤ s.pcount.val + n → t.pending[j] =
        if j.val < s.pcount.val + n - 64 then (dataBytes data n).getD (64 - s.pcount.val + j.val) 0
        else if s.pcount.val ≤ j.val then (dataBytes data n).getD (j.val - s.pcount.val) 0
        else s.pending[j])

/-- 42_update.md R162: the direct path writes `h` and not `pending`, and the hash words after it are those of copying each
64-byte group into `pending` and compressing `pending`. -/
def Obligations.DirectPathIsCopyThenCompress : Prop :=
  ∀ (s : State) (k : Nat) (data : List Byte), 64 * k ≤ data.length →
    ∃ bs : List Block, bs.length = k ∧ blockBytes bs = data.take (64 * k) ∧
      s.directPath k data = { s with h := bs.foldl compress s.h, blocks := s.blocks ++ bs } ∧
      (∀ i, (hi : i < bs.length) → ∀ p : Block, writeBytes p 0 ((data.drop (64 * i)).take 64) = bs[i])

/-- 42_update.md R164: for any partition of a byte sequence into chunks, empty ones among them, successive updates and one
update on the whole leave the same state up to the stale bytes of `pending`, compress the same blocks, and so finalize to
the same digest. -/
def Obligations.UpdateIsChunkingInvariant : Prop :=
  (∀ (s : State) (x y : List Byte), ((s.update x).update y).ObsEq (s.update (x ++ y)) ∧
    ((s.update x).update y).blocks = (s.update (x ++ y)).blocks) ∧
  (∀ (s : State) (chunks : List (List Byte)), (chunks.foldl State.update s).ObsEq (s.update chunks.flatten) ∧
    (chunks.foldl State.update s).blocks = (s.update chunks.flatten).blocks ∧
    (chunks.foldl State.update s).finalize.h = (s.update chunks.flatten).finalize.h)

/-- 42_update.md R167: `update` is pushing the bytes one at a time, up to the stale bytes, and the update of nothing is the
identity up to them. -/
def Obligations.UpdateIsPushingItsBytes : Prop :=
  (∀ (s : State) (data : List Byte), (s.update data).ObsEq (data.foldl State.push s) ∧
    (s.update data).blocks = (data.foldl State.push s).blocks) ∧
  ∀ s : State, (s.update []).ObsEq s

/-- 42_update.md R166: from `pcount = p`, `update` compresses `floor((p + |data|) / 64)` times and leaves
`pcount = (p + |data|) mod 64`; an UPDATE command compresses once when `pcount + N >= 64`, otherwise not at all. -/
def Obligations.UpdateCompressesOncePerFilledBlock : Prop :=
  (∀ (s : State) (data : List Byte),
    (s.update data).blocks.length = s.blocks.length + (s.pcount.val + data.length) / 64 ∧
    (s.update data).pcount.val = (s.pcount.val + data.length) % 64) ∧
  (∀ (s : State) (n : Nat) (data : Word), s.lc = .active → n ≤ 4 → ∃ t, exec (.update n data) s = .next t ∧
    t.blocks.length = s.blocks.length + if 64 ≤ s.pcount.val + n then 1 else 0)

/-- 10_state.md R24: UPDATE adds its byte count to `total` modulo 2^64, a count of zero included; INIT, DESTROY and reset set
it to 0, FINAL leaves it; LENLO and LENHI are its halves. -/
def Obligations.TotalCountsBytesModuloTwoToTheSixtyFour : Prop :=
  (∀ (s : State) (data : List Byte), (s.update data).total.toNat = (s.total.toNat + data.length) % 2 ^ 64) ∧
  (∀ (s : State) (n : Nat) (data : Word), s.lc = .active → n ≤ 4 → ∃ t, exec (.update n data) s = .next t ∧
    t.total.toNat = (s.total.toNat + n) % 2 ^ 64) ∧
  (∀ s : State, s.lc = .idle → ∃ t, exec .init s = .next t ∧ t.total = 0) ∧
  (∀ s : State, s.lc ≠ .idle → ∃ t, exec .destroy s = .next t ∧ t.total = 0) ∧
  (∀ s : State, ∃ t, serve .reset s = .next t ∧ t.total = 0) ∧
  (∀ s : State, ∃ t, exec .final s = .next t ∧ t.total = s.total) ∧
  (∀ s : State, (s.readWord 0x1).toNat = s.total.toNat % 2 ^ 32 ∧ (s.readWord 0x2).toNat = s.total.toNat / 2 ^ 32)

/-- 10_state.md R21: in a live computation `h` is written only by accumulation, block by block; otherwise it is written by
INIT (to IV), by DESTROY and by reset (to zero); the host reads it at 8 + j in every lifecycle state. -/
def Obligations.HashWordsAreWrittenOnlyAsListed : Prop :=
  (∀ s t : State, step s = .next t → ∃ bs : List Block, t.blocks = s.blocks ++ bs ∧
    (s.lc = .active → t.lc ≠ .idle → t.h = bs.foldl compress s.h) ∧
    (t.h ≠ s.h → (s.lc = .active ∧ t.lc ≠ .idle ∧ bs ≠ []) ∨ (s.lc = .idle ∧ t.lc = .active ∧ t.h = iv) ∨
      (t.lc = .idle ∧ ∀ j : Fin 8, t.h[j] = 0))) ∧
  (∀ (s : State) (j : Fin 8), s.readWord (BitVec.ofNat 4 (8 + j.val)) = s.h[j])

/-- 42_update.md R168: INIT and then any UPDATE commands carrying the bytes `m` leave `total = |m| mod 2^64`,
`pcount = |m| mod 64`, the last `pcount` bytes of `m` valid in `pending`, and `h` the compression from IV of the complete
blocks of `m` in order. -/
def Obligations.UpdatesSinceInitAbsorbTheirBytes : Prop :=
  ∀ (s : State) (ops : List (Nat × Word)), s.lc = .idle → (∀ o ∈ ops, o.1 ≤ 4) →
    ∃ t, execAll (.init :: updates ops) s = .next t ∧ t.lc = .active ∧ t.err = .ok ∧ t.Absorbed (carried ops)

/-! ## The finalizer -/

/-- 43_finalize.md R184, R180 and R181: FINAL in ACTIVE compresses one block (`pcount` 0..55) or two (56..63): the valid bytes, 0x80,
zeros, and the bit count modulo 2^64 in the last eight bytes; nothing of the stale bytes. `pending` keeps the last block,
`pcount` is 0, `total` stays, STATUS is 2. Outside ACTIVE it fails USAGE; every other word with OPC 0x03 is ILLEGAL. -/
def Obligations.FinalPadsAndCompressesTheLastBlocks : Prop :=
  (∀ s : State, s.lc = .active → s.pcount.val ≤ 55 → ∃ (t : State) (b : Block), exec .final s = .next t ∧
    b.toList = s.valid ++ [0x80] ++ List.replicate (55 - s.pcount.val) 0 ++
      be64bytes (BitVec.ofNat 64 (s.total.toNat * 8)) ∧ t.status = 0x00000002 ∧
    t = { s with h := compress s.h b, pending := b, pcount := 0, lc := .final, err := .ok,
                 replies := s.replies ++ [.status t.status], blocks := s.blocks ++ [b] }) ∧
  (∀ s : State, s.lc = .active → 56 ≤ s.pcount.val → ∃ (t : State) (b c : Block), exec .final s = .next t ∧
    b.toList = s.valid ++ [0x80] ++ List.replicate (63 - s.pcount.val) 0 ∧
    c.toList = List.replicate 56 0 ++ be64bytes (BitVec.ofNat 64 (s.total.toNat * 8)) ∧ t.status = 0x00000002 ∧
    t = { s with h := compress (compress s.h b) c, pending := c, pcount := 0, lc := .final, err := .ok,
                 replies := s.replies ++ [.status t.status], blocks := s.blocks ++ [b, c] }) ∧
  (∀ s : State, s.lc ≠ .active → ∃ t, exec .final s = .next t ∧
    t = { s with err := .usage, replies := s.replies ++ [.status t.status] }) ∧
  (∀ (s : State) (cmd data : Word), opcField cmd = 0x03 → cmd ≠ 0x03000000 → ∃ t, serveCommand cmd data s = .next t ∧
    t = { s with err := .illegal, replies := s.replies ++ [.status t.status] }) ∧
  (∀ cmd data : Word, decode cmd data = .ok .final ↔ cmd = 0x03000000)

/-- 43_finalize.md R182: FINAL compresses once for `pcount` 0..55 and twice for 56..63; a message of `n` bytes since INIT
takes `floor(n / 64) + (1 if n mod 64 <= 55 else 2)` compressions in all. -/
def Obligations.FinalCompressesOnceOrTwice : Prop :=
  (∀ s : State, s.lc = .active → ∃ t, exec .final s = .next t ∧
    t.blocks.length = s.blocks.length + if s.pcount.val ≤ 55 then 1 else 2) ∧
  (∀ (s : State) (ops : List (Nat × Word)), s.lc = .idle → (∀ o ∈ ops, o.1 ≤ 4) →
    ∃ t, execAll (.init :: updates ops ++ [.final]) s = .next t ∧
      t.blocks.length = s.blocks.length +
        ((carried ops).length / 64 + if (carried ops).length % 64 ≤ 55 then 1 else 2))

/-- 43_finalize.md R185: in FINAL, a second FINAL and every UPDATE fail with USAGE and change nothing else. -/
def Obligations.DigestCannotBeDoublePadded : Prop :=
  ∀ (s : State) (i : Instr), s.lc = .final → (i = .final ∨ ∃ n d, i = .update n d) →
    ∃ t, exec i s = .next t ∧ t = { s with err := .usage, replies := s.replies ++ [.status t.status] }

/-- 43_finalize.md R186: across INIT, any UPDATE commands carrying `m`, and FINAL, the bytes compressed in order from IV are
exactly `m ++ [0x80] ++ 0^k ++ be64bytes(8n)`, a multiple of 64 bytes, and `h` is then their digest. -/
def Obligations.TheBytesCompressedAreThePaddedMessage : Prop :=
  ∀ (s : State) (ops : List (Nat × Word)), s.lc = .idle → (∀ o ∈ ops, o.1 ≤ 4) →
    ∃ (t : State) (bs : List Block), execAll (.init :: updates ops ++ [.final]) s = .next t ∧ t.lc = .final ∧
      t.total = BitVec.ofNat 64 (carried ops).length ∧ t.blocks = s.blocks ++ bs ∧
      blockBytes bs = padded (carried ops) ∧ (padded (carried ops)).length % 64 = 0 ∧ t.h = bs.foldl compress iv

/-- From 43_finalize.md section 3: the digest is a function of the message bytes alone: two contexts, whatever their earlier
states, fed the same bytes in any splits and with any unused DATA bytes, end with the same hash words. -/
def Obligations.DigestDependsOnTheMessageAlone : Prop :=
  ∀ (s s' : State) (ops ops' : List (Nat × Word)), s.lc = .idle → s'.lc = .idle → (∀ o ∈ ops, o.1 ≤ 4) →
    (∀ o ∈ ops', o.1 ≤ 4) → carried ops = carried ops' →
    ∃ t t', execAll (.init :: updates ops ++ [.final]) s = .next t ∧
      execAll (.init :: updates ops' ++ [.final]) s' = .next t' ∧ t.h = t'.h ∧ digestBytes t.h = digestBytes t'.h ∧
      t.total = t'.total

/-! ## Invariants and what cannot be observed -/

/-- 10_state.md R35 holds at reset. -/
def Obligations.ResetMeetsTheInvariant : Prop := State.reset.Inv

/-- 10_state.md R35: every step, of any transaction, keeps the invariant between commands: IDLE is all zero; in ACTIVE
`pcount = total mod 64` and the state is that of the message absorbed; in FINAL `pcount = 0` and `h` holds the digest of a
message whose length `total` counts. So it holds after any transactions from reset. -/
def Obligations.EveryStepKeepsTheInvariant : Prop :=
  (∀ s t : State, s.Inv → step s = .next t → t.Inv) ∧
  (∀ (q : List Request) (k : Nat) (t : State), stepMany k { State.reset with queue := q } = .next t → t.Inv)

/-- 10_state.md R36: no observation depends on the stale bytes of `pending`: two states equal up to them, given the same
transactions, return the same replies over any number of steps and stay equal up to them. -/
def Obligations.StaleBytesOfPendingCannotBeObserved : Prop :=
  ∀ (k : Nat) (s s' : State), s.ObsEq s' → s.queue = s'.queue →
    ∃ (t t' : State) (rs : List Reply), stepMany k s = .next t ∧ stepMany k s' = .next t' ∧ t.ObsEq t' ∧
      t.queue = t'.queue ∧ t.replies = s.replies ++ rs ∧ t'.replies = s'.replies ++ rs

/-! ## Several hosts, several instances, host programs -/

/-- 20_memory.md R62: what the arbiter can make of the hosts' lists is exactly their interleavings of whole transactions.
The arbiter's form is the model's own choice, log entry 7. -/
def Obligations.ArbiterAdmitsExactlyTheInterleavings : Prop :=
  ∀ (hosts : List (List Request)) (zs : List Request),
    Interleaving hosts zs ↔ ∃ choices, arbitrate choices hosts = zs

/-- 60_exceptions.md R214: instances do not interfere: after any schedule of steps of any instances, each instance is in the
state its own steps alone take it to. -/
def Obligations.InstancesDoNotInterfere : Prop :=
  ∀ (ks : List Nat) (p : List State), ∃ p', stepInstances ks p = .next p' ∧ p'.length = p.length ∧
    ∀ (j : Nat) (s : State), p[j]? = some s → ∃ t, stepMany (ks.count j) s = .next t ∧ p'[j]? = some t

/-- From 30_encoding.md section 4: `BYTES` expands to UPDATE commands, of 1 to 4 bytes each, that carry exactly its bytes, in order. -/
def Obligations.BytesExpandsToUpdatesCarryingThem : Prop :=
  ∀ bs : List Byte, ∃ ops : List (Nat × Word), (AsmLine.bytes bs).requests = (updates ops).map issue ∧
    (∀ o ∈ ops, 1 ≤ o.1 ∧ o.1 ≤ 4) ∧ carried ops = bs

/-! ## Runs -/

/-- 20_memory.md R66: the steps of a program from a start state end its run at the last command's response (`k` steps and no
fewer), and its observation is the replies to all its commands and reads in order and the state after that command.
That the replies to reads after the last command are counted in is the model's own choice, log entry 16. -/
def Obligations.RunEndsAtTheLastCommandsResponse : Prop :=
  ∀ (s : State) (program : List Request), ∃ (k : Nat) (t u : State) (o : Observation),
    s.observe program = .next o ∧ k ≤ program.length ∧
    stepMany k { s with queue := program } = .next t ∧ t.runEnded = true ∧
    (∀ j v, j < k → stepMany j { s with queue := program } = .next v → v.runEnded = false) ∧
    stepMany program.length { s with queue := program } = .next u ∧
    t = { o.state with queue := program.drop k } ∧ u.replies = s.replies ++ o.results ∧
    ((∀ r ∈ program, (∃ cmd data, r = .command cmd data) ∨ ∃ x, r = .read x) → o.results.length = program.length) ∧
    ∀ rs : List (BitVec 4), program.drop k = rs.map .read →
      o.results = t.replies.drop s.replies.length ++ rs.map fun x => .rdata (t.readWord x)
end

