-- ==== Sys2Proof/Laws/State.lean ====
section
/-! SUPPORT. What each update of the state leaves in each field, one lemma a field and an update, all true by
unfolding: later proofs cite these and unfold no record update. -/

namespace Sys2Proof.Machine

@[simp] theorem State.compressBlock_lc (s : State) (b : Block) : (s.compressBlock b).lc = s.lc := rfl
@[simp] theorem State.compressBlock_err (s : State) (b : Block) : (s.compressBlock b).err = s.err := rfl
@[simp] theorem State.compressBlock_h (s : State) (b : Block) : (s.compressBlock b).h = compress s.h b := rfl
@[simp] theorem State.compressBlock_pending (s : State) (b : Block) : (s.compressBlock b).pending = s.pending := rfl
@[simp] theorem State.compressBlock_pcount (s : State) (b : Block) : (s.compressBlock b).pcount = s.pcount := rfl
@[simp] theorem State.compressBlock_total (s : State) (b : Block) : (s.compressBlock b).total = s.total := rfl
@[simp] theorem State.compressBlock_queue (s : State) (b : Block) : (s.compressBlock b).queue = s.queue := rfl
@[simp] theorem State.compressBlock_replies (s : State) (b : Block) : (s.compressBlock b).replies = s.replies := rfl
@[simp] theorem State.compressBlock_blocks (s : State) (b : Block) : (s.compressBlock b).blocks = s.blocks ++ [b] := rfl

@[simp] theorem State.respond_lc (s : State) (e : ErrCode) : (s.respond e).lc = s.lc := rfl
@[simp] theorem State.respond_err (s : State) (e : ErrCode) : (s.respond e).err = e := rfl
@[simp] theorem State.respond_h (s : State) (e : ErrCode) : (s.respond e).h = s.h := rfl
@[simp] theorem State.respond_pending (s : State) (e : ErrCode) : (s.respond e).pending = s.pending := rfl
@[simp] theorem State.respond_pcount (s : State) (e : ErrCode) : (s.respond e).pcount = s.pcount := rfl
@[simp] theorem State.respond_total (s : State) (e : ErrCode) : (s.respond e).total = s.total := rfl
@[simp] theorem State.respond_queue (s : State) (e : ErrCode) : (s.respond e).queue = s.queue := rfl
@[simp] theorem State.respond_replies (s : State) (e : ErrCode) : (s.respond e).replies = s.replies ++ [.status (s.respond e).status] := rfl
@[simp] theorem State.respond_blocks (s : State) (e : ErrCode) : (s.respond e).blocks = s.blocks := rfl

@[simp] theorem State.fail_lc (s : State) (e : ErrCode) : (s.fail e).lc = s.lc := rfl
@[simp] theorem State.fail_err (s : State) (e : ErrCode) : (s.fail e).err = e := rfl
@[simp] theorem State.fail_h (s : State) (e : ErrCode) : (s.fail e).h = s.h := rfl
@[simp] theorem State.fail_pending (s : State) (e : ErrCode) : (s.fail e).pending = s.pending := rfl
@[simp] theorem State.fail_pcount (s : State) (e : ErrCode) : (s.fail e).pcount = s.pcount := rfl
@[simp] theorem State.fail_total (s : State) (e : ErrCode) : (s.fail e).total = s.total := rfl
@[simp] theorem State.fail_queue (s : State) (e : ErrCode) : (s.fail e).queue = s.queue := rfl
@[simp] theorem State.fail_replies (s : State) (e : ErrCode) : (s.fail e).replies = s.replies ++ [.status (s.fail e).status] := rfl
@[simp] theorem State.fail_blocks (s : State) (e : ErrCode) : (s.fail e).blocks = s.blocks := rfl

@[simp] theorem State.serveRead_lc (s : State) (r : BitVec 4) : (s.serveRead r).lc = s.lc := rfl
@[simp] theorem State.serveRead_err (s : State) (r : BitVec 4) : (s.serveRead r).err = s.err := rfl
@[simp] theorem State.serveRead_h (s : State) (r : BitVec 4) : (s.serveRead r).h = s.h := rfl
@[simp] theorem State.serveRead_pending (s : State) (r : BitVec 4) : (s.serveRead r).pending = s.pending := rfl
@[simp] theorem State.serveRead_pcount (s : State) (r : BitVec 4) : (s.serveRead r).pcount = s.pcount := rfl
@[simp] theorem State.serveRead_total (s : State) (r : BitVec 4) : (s.serveRead r).total = s.total := rfl
@[simp] theorem State.serveRead_queue (s : State) (r : BitVec 4) : (s.serveRead r).queue = s.queue := rfl
@[simp] theorem State.serveRead_replies (s : State) (r : BitVec 4) : (s.serveRead r).replies = s.replies ++ [.rdata (s.readWord r)] := rfl
@[simp] theorem State.serveRead_blocks (s : State) (r : BitVec 4) : (s.serveRead r).blocks = s.blocks := rfl

@[simp] theorem State.serveReset_lc (s : State) : (s.serveReset).lc = .idle := rfl
@[simp] theorem State.serveReset_err (s : State) : (s.serveReset).err = .ok := rfl
@[simp] theorem State.serveReset_h (s : State) : (s.serveReset).h = Vector.replicate 8 0 := rfl
@[simp] theorem State.serveReset_pending (s : State) : (s.serveReset).pending = Vector.replicate 64 0 := rfl
@[simp] theorem State.serveReset_pcount (s : State) : (s.serveReset).pcount = 0 := rfl
@[simp] theorem State.serveReset_total (s : State) : (s.serveReset).total = 0 := rfl
@[simp] theorem State.serveReset_queue (s : State) : (s.serveReset).queue = s.queue := rfl
@[simp] theorem State.serveReset_replies (s : State) : (s.serveReset).replies = s.replies := rfl
@[simp] theorem State.serveReset_blocks (s : State) : (s.serveReset).blocks = s.blocks := rfl

@[simp] theorem State.initBody_lc (s : State) : (initBody s).lc = .active := rfl
@[simp] theorem State.initBody_err (s : State) : (initBody s).err = s.err := rfl
@[simp] theorem State.initBody_h (s : State) : (initBody s).h = iv := rfl
@[simp] theorem State.initBody_pending (s : State) : (initBody s).pending = s.pending := rfl
@[simp] theorem State.initBody_pcount (s : State) : (initBody s).pcount = 0 := rfl
@[simp] theorem State.initBody_total (s : State) : (initBody s).total = 0 := rfl
@[simp] theorem State.initBody_queue (s : State) : (initBody s).queue = s.queue := rfl
@[simp] theorem State.initBody_replies (s : State) : (initBody s).replies = s.replies := rfl
@[simp] theorem State.initBody_blocks (s : State) : (initBody s).blocks = s.blocks := rfl

@[simp] theorem State.destroyBody_lc (s : State) : (destroyBody s).lc = .idle := rfl
@[simp] theorem State.destroyBody_err (s : State) : (destroyBody s).err = s.err := rfl
@[simp] theorem State.destroyBody_h (s : State) : (destroyBody s).h = Vector.replicate 8 0 := rfl
@[simp] theorem State.destroyBody_pending (s : State) : (destroyBody s).pending = zeroBlock := rfl
@[simp] theorem State.destroyBody_pcount (s : State) : (destroyBody s).pcount = 0 := rfl
@[simp] theorem State.destroyBody_total (s : State) : (destroyBody s).total = 0 := rfl
@[simp] theorem State.destroyBody_queue (s : State) : (destroyBody s).queue = s.queue := rfl
@[simp] theorem State.destroyBody_replies (s : State) : (destroyBody s).replies = s.replies := rfl
@[simp] theorem State.destroyBody_blocks (s : State) : (destroyBody s).blocks = s.blocks := rfl

@[simp] theorem State.keepRemainder_lc (s : State) (r : List Byte) : (s.keepRemainder r).lc = s.lc := rfl
@[simp] theorem State.keepRemainder_err (s : State) (r : List Byte) : (s.keepRemainder r).err = s.err := rfl
@[simp] theorem State.keepRemainder_h (s : State) (r : List Byte) : (s.keepRemainder r).h = s.h := rfl
@[simp] theorem State.keepRemainder_pending (s : State) (r : List Byte) : (s.keepRemainder r).pending = writeBytes s.pending 0 r := rfl
@[simp] theorem State.keepRemainder_pcount (s : State) (r : List Byte) : (s.keepRemainder r).pcount = Fin.ofNat 64 r.length := rfl
@[simp] theorem State.keepRemainder_total (s : State) (r : List Byte) : (s.keepRemainder r).total = s.total := rfl
@[simp] theorem State.keepRemainder_queue (s : State) (r : List Byte) : (s.keepRemainder r).queue = s.queue := rfl
@[simp] theorem State.keepRemainder_replies (s : State) (r : List Byte) : (s.keepRemainder r).replies = s.replies := rfl
@[simp] theorem State.keepRemainder_blocks (s : State) (r : List Byte) : (s.keepRemainder r).blocks = s.blocks := rfl

@[simp] theorem State.fillAndCompress_lc (s : State) (l : List Byte) : (s.fillAndCompress l).lc = s.lc := rfl
@[simp] theorem State.fillAndCompress_err (s : State) (l : List Byte) : (s.fillAndCompress l).err = s.err := rfl
@[simp] theorem State.fillAndCompress_h (s : State) (l : List Byte) : (s.fillAndCompress l).h = compress s.h (writeBytes s.pending s.pcount.val l) := rfl
@[simp] theorem State.fillAndCompress_pending (s : State) (l : List Byte) : (s.fillAndCompress l).pending = writeBytes s.pending s.pcount.val l := rfl
@[simp] theorem State.fillAndCompress_pcount (s : State) (l : List Byte) : (s.fillAndCompress l).pcount = 0 := rfl
@[simp] theorem State.fillAndCompress_total (s : State) (l : List Byte) : (s.fillAndCompress l).total = s.total := rfl
@[simp] theorem State.fillAndCompress_queue (s : State) (l : List Byte) : (s.fillAndCompress l).queue = s.queue := rfl
@[simp] theorem State.fillAndCompress_replies (s : State) (l : List Byte) : (s.fillAndCompress l).replies = s.replies := rfl
@[simp] theorem State.fillAndCompress_blocks (s : State) (l : List Byte) : (s.fillAndCompress l).blocks = s.blocks ++ [writeBytes s.pending s.pcount.val l] := rfl

@[simp] theorem State.appendPartial_lc (s : State) (l : List Byte) : (s.appendPartial l).lc = s.lc := rfl
@[simp] theorem State.appendPartial_err (s : State) (l : List Byte) : (s.appendPartial l).err = s.err := rfl
@[simp] theorem State.appendPartial_h (s : State) (l : List Byte) : (s.appendPartial l).h = s.h := rfl
@[simp] theorem State.appendPartial_pending (s : State) (l : List Byte) : (s.appendPartial l).pending = writeBytes s.pending s.pcount.val l := rfl
@[simp] theorem State.appendPartial_pcount (s : State) (l : List Byte) : (s.appendPartial l).pcount = Fin.ofNat 64 (s.pcount.val + l.length) := rfl
@[simp] theorem State.appendPartial_total (s : State) (l : List Byte) : (s.appendPartial l).total = s.total := rfl
@[simp] theorem State.appendPartial_queue (s : State) (l : List Byte) : (s.appendPartial l).queue = s.queue := rfl
@[simp] theorem State.appendPartial_replies (s : State) (l : List Byte) : (s.appendPartial l).replies = s.replies := rfl
@[simp] theorem State.appendPartial_blocks (s : State) (l : List Byte) : (s.appendPartial l).blocks = s.blocks := rfl

@[simp] theorem State.countBytes_lc (s : State) (n : Nat) : (s.countBytes n).lc = s.lc := rfl
@[simp] theorem State.countBytes_err (s : State) (n : Nat) : (s.countBytes n).err = s.err := rfl
@[simp] theorem State.countBytes_h (s : State) (n : Nat) : (s.countBytes n).h = s.h := rfl
@[simp] theorem State.countBytes_pending (s : State) (n : Nat) : (s.countBytes n).pending = s.pending := rfl
@[simp] theorem State.countBytes_pcount (s : State) (n : Nat) : (s.countBytes n).pcount = s.pcount := rfl
@[simp] theorem State.countBytes_total (s : State) (n : Nat) : (s.countBytes n).total = s.total + BitVec.ofNat 64 n := rfl
@[simp] theorem State.countBytes_queue (s : State) (n : Nat) : (s.countBytes n).queue = s.queue := rfl
@[simp] theorem State.countBytes_replies (s : State) (n : Nat) : (s.countBytes n).replies = s.replies := rfl
@[simp] theorem State.countBytes_blocks (s : State) (n : Nat) : (s.countBytes n).blocks = s.blocks := rfl

@[simp] theorem State.appendMark_lc (s : State) : (s.appendMark).lc = s.lc := rfl
@[simp] theorem State.appendMark_err (s : State) : (s.appendMark).err = s.err := rfl
@[simp] theorem State.appendMark_h (s : State) : (s.appendMark).h = s.h := rfl
@[simp] theorem State.appendMark_pending (s : State) : (s.appendMark).pending = writeBytes s.pending s.pcount.val [0x80] := rfl
@[simp] theorem State.appendMark_pcount (s : State) : (s.appendMark).pcount = s.pcount := rfl
@[simp] theorem State.appendMark_total (s : State) : (s.appendMark).total = s.total := rfl
@[simp] theorem State.appendMark_queue (s : State) : (s.appendMark).queue = s.queue := rfl
@[simp] theorem State.appendMark_replies (s : State) : (s.appendMark).replies = s.replies := rfl
@[simp] theorem State.appendMark_blocks (s : State) : (s.appendMark).blocks = s.blocks := rfl

@[simp] theorem State.spill_lc (s : State) (p : Nat) : (s.spill p).lc = s.lc := rfl
@[simp] theorem State.spill_err (s : State) (p : Nat) : (s.spill p).err = s.err := rfl
@[simp] theorem State.spill_h (s : State) (p : Nat) : (s.spill p).h = compress s.h (zeroFill s.pending p 64) := rfl
@[simp] theorem State.spill_pending (s : State) (p : Nat) : (s.spill p).pending = zeroBlock := rfl
@[simp] theorem State.spill_pcount (s : State) (p : Nat) : (s.spill p).pcount = s.pcount := rfl
@[simp] theorem State.spill_total (s : State) (p : Nat) : (s.spill p).total = s.total := rfl
@[simp] theorem State.spill_queue (s : State) (p : Nat) : (s.spill p).queue = s.queue := rfl
@[simp] theorem State.spill_replies (s : State) (p : Nat) : (s.spill p).replies = s.replies := rfl
@[simp] theorem State.spill_blocks (s : State) (p : Nat) : (s.spill p).blocks = s.blocks ++ [zeroFill s.pending p 64] := rfl

@[simp] theorem State.lastBlock_lc (s : State) (p : Nat) : (s.lastBlock p).lc = s.lc := rfl
@[simp] theorem State.lastBlock_err (s : State) (p : Nat) : (s.lastBlock p).err = s.err := rfl
@[simp] theorem State.lastBlock_h (s : State) (p : Nat) : (s.lastBlock p).h = compress s.h (s.lengthBlock p) := rfl
@[simp] theorem State.lastBlock_pending (s : State) (p : Nat) : (s.lastBlock p).pending = s.lengthBlock p := rfl
@[simp] theorem State.lastBlock_pcount (s : State) (p : Nat) : (s.lastBlock p).pcount = 0 := rfl
@[simp] theorem State.lastBlock_total (s : State) (p : Nat) : (s.lastBlock p).total = s.total := rfl
@[simp] theorem State.lastBlock_queue (s : State) (p : Nat) : (s.lastBlock p).queue = s.queue := rfl
@[simp] theorem State.lastBlock_replies (s : State) (p : Nat) : (s.lastBlock p).replies = s.replies := rfl
@[simp] theorem State.lastBlock_blocks (s : State) (p : Nat) : (s.lastBlock p).blocks = s.blocks ++ [s.lengthBlock p] := rfl

@[simp] theorem State.issueFirst_lc (s : State) (c d : Word) : (s.issueFirst c d).lc = s.lc := rfl
@[simp] theorem State.issueFirst_err (s : State) (c d : Word) : (s.issueFirst c d).err = s.err := rfl
@[simp] theorem State.issueFirst_h (s : State) (c d : Word) : (s.issueFirst c d).h = s.h := rfl
@[simp] theorem State.issueFirst_pending (s : State) (c d : Word) : (s.issueFirst c d).pending = s.pending := rfl
@[simp] theorem State.issueFirst_pcount (s : State) (c d : Word) : (s.issueFirst c d).pcount = s.pcount := rfl
@[simp] theorem State.issueFirst_total (s : State) (c d : Word) : (s.issueFirst c d).total = s.total := rfl
@[simp] theorem State.issueFirst_queue (s : State) (c d : Word) : (s.issueFirst c d).queue = .command c d :: s.queue := rfl
@[simp] theorem State.issueFirst_replies (s : State) (c d : Word) : (s.issueFirst c d).replies = s.replies := rfl
@[simp] theorem State.issueFirst_blocks (s : State) (c d : Word) : (s.issueFirst c d).blocks = s.blocks := rfl

/-- The host's record of a run has no part in STATUS. -/
@[simp] theorem State.status_queue (s : State) (q : List Request) : ({ s with queue := q } : State).status = s.status := rfl
@[simp] theorem State.readWord_queue (s : State) (q : List Request) (r : BitVec 4) :
    ({ s with queue := q } : State).readWord r = s.readWord r := rfl

end Sys2Proof.Machine
end

