-- ==== Sys2Proof/Laws/Ops.lean ====
section
/-! SUPPORT. What the shared operations of Machine/Ops.lean and Machine/Serve.lean can do, said once: the block buffer byte
by byte, the two ends of a command, and the cases of a step. -/

namespace Sys2Proof.Machine

/-- What `writeBytes` does to each byte. -/
theorem writeBytes_get (bytes : List Byte) : ∀ (buf : Block) (k : Nat) (j : Fin 64),
    (writeBytes buf k bytes)[j] = if k ≤ j.val ∧ j.val < k + bytes.length then bytes.getD (j.val - k) 0 else buf[j] := by
  induction bytes with
  | nil => intro buf k j; rw [writeBytes, if_neg (by simp)]
  | cons b bs ih =>
    intro buf k j
    rw [writeBytes, ih]
    simp only [Fin.getElem_fin, List.length_cons, Vector.getElem_setIfInBounds]
    rcases Nat.lt_trichotomy k j.val with h | h | h
    · obtain ⟨m, hm⟩ := Nat.exists_eq_add_of_lt h
      have e1 : j.val - k = (j.val - (k + 1)) + 1 := by omega
      rw [e1, List.getD_cons_succ]
      simp [show k ≠ j.val by omega, show k ≤ j.val by omega, show k + 1 ≤ j.val by omega,
        show j.val < k + 1 + bs.length ↔ j.val < k + (bs.length + 1) by omega]
    · subst h; simp
    · simp [show ¬ k ≤ j.val by omega, show ¬ k + 1 ≤ j.val by omega, show k ≠ j.val by omega]

/-- `writeBytes` within the block, as a list: before, the bytes written, after. -/
theorem writeBytes_toList (buf : Block) (k : Nat) (bytes : List Byte) (h : k + bytes.length ≤ 64) :
    (writeBytes buf k bytes).toList = buf.toList.take k ++ bytes ++ buf.toList.drop (k + bytes.length) := by
  apply List.ext_getElem
  · simp; omega
  · intro i h1 h2
    have hi : i < 64 := by simpa using h1
    have := writeBytes_get bytes buf k ⟨i, hi⟩
    simp only [Fin.getElem_fin] at this
    rw [Vector.getElem_toList, this]
    simp only [List.append_assoc, List.getElem_append, List.length_take, Vector.length_toList]
    have hm : min k 64 = k := by omega
    simp only [hm]
    split_ifs with a b c
    · omega
    · rw [List.getD_eq_getElem _ _ (by omega)]
    · omega
    · simp
    · omega
    · simp only [List.getElem_drop, Vector.getElem_toList]
      congr 1; omega


/-- The block of 64 bytes has those bytes. -/
theorem blockOfBytes_toList (bytes : List Byte) (h : bytes.length = 64) : (blockOfBytes bytes).toList = bytes := by
  rw [blockOfBytes, writeBytes_toList _ _ _ (by omega)]
  simp [h]

/-- `zeroFill` within the block, as a list. -/
theorem zeroFill_toList (buf : Block) (lo hi : Nat) (h1 : lo ≤ hi) (h2 : hi ≤ 64) :
    (zeroFill buf lo hi).toList = buf.toList.take lo ++ List.replicate (hi - lo) 0 ++ buf.toList.drop hi := by
  rw [zeroFill, writeBytes_toList _ _ _ (by simp; omega)]
  simp
  congr 1
  omega

/-- A block is the block of its bytes. -/
theorem blockOfBytes_eq (b : Block) (bytes : List Byte) (h : b.toList = bytes) : blockOfBytes bytes = b := by
  have hl : bytes.length = 64 := by rw [← h]; simp
  apply Vector.toList_inj.mp
  rw [blockOfBytes_toList _ hl, h]

/-- As many valid bytes as `pcount` says. -/
@[simp] theorem State.valid_length (s : State) : s.valid.length = s.pcount.val := by
  simp [State.valid]

/-- Bytes written at the fill count extend the valid bytes. -/
theorem writeBytes_valid (s : State) (bytes : List Byte) (h : s.pcount.val + bytes.length ≤ 64) :
    (writeBytes s.pending s.pcount.val bytes).toList.take (s.pcount.val + bytes.length) = s.valid ++ bytes := by
  rw [writeBytes_toList _ _ _ h, List.take_append_of_le_length (by simp), List.take_of_length_le (by simp)]
  rfl

/-- STATUS as a number: its three fields do not overlap (10_state.md R27). -/
theorem State.status_toNat (s : State) : s.status.toNat = s.pcount.val * 256 + s.err.code * 16 + s.lc.code := by
  obtain ⟨lc, err, h, p, ⟨c, hc⟩, t, q, r, b⟩ := s
  have all : ∀ c : Fin 64, ∀ e < 4, ∀ l < 3, ((BitVec.ofNat 32 c.val <<< 8) ||| (BitVec.ofNat 32 e <<< 4) |||
      BitVec.ofNat 32 l).toNat = c.val * 256 + e * 16 + l := by decide +kernel
  exact all ⟨c, hc⟩ err.code (by cases err <;> decide) lc.code (by cases lc <;> decide)

/-- Read index 8 + j is hash word j (20_memory.md R55). -/
@[simp] theorem State.readWord_hash (s : State) (j : Fin 8) : s.readWord (BitVec.ofNat 4 (8 + j.val)) = s.h[j] := by
  fin_cases j <;> rfl

/-- The two ends of a legal command (40_lifecycle.md R100). -/
theorem State.run_cases (pre : Lc → Bool) (code : ErrCode) (body : State → State) (s : State) :
    (pre s.lc = true ∧ s.run pre code body = (body s).respond .ok) ∨
      (pre s.lc = false ∧ s.run pre code body = s.fail code) := by
  unfold State.run
  cases h : pre s.lc
  · exact .inr ⟨rfl, rfl⟩
  · exact .inl ⟨rfl, rfl⟩

/-- What a served command is: a decoded command's meaning, or the ILLEGAL error. -/
theorem serveCommand_cases (cmd data : Word) (s : State) :
    (∃ i, decode cmd data = .ok i ∧ serveCommand cmd data s = exec i s) ∨
      (∃ e, decode cmd data = .error e ∧ serveCommand cmd data s = .next (s.fail .illegal)) := by
  unfold serveCommand
  cases h : decode cmd data with
  | ok i => exact .inl ⟨i, rfl, rfl⟩
  | error e => exact .inr ⟨e, rfl, rfl⟩

/-- What a step can be, by the head of the host's list. -/
theorem step_cases (s : State) :
    (s.queue = [] ∧ step s = .next s) ∨
    ∃ rest, (∃ cmd data, s.queue = .command cmd data :: rest ∧ step s = serveCommand cmd data { s with queue := rest }) ∨
      (∃ r, s.queue = .read r :: rest ∧ step s = .next (({ s with queue := rest } : State).serveRead r)) ∨
      ((s.queue = .reset :: rest ∨ ∃ cmd data, s.queue = .abandoned cmd data :: rest) ∧
        step s = .next ({ s with queue := rest } : State).serveReset) := by
  unfold step serveNext
  split
  · exact .inl ⟨‹_›, rfl⟩
  · rename_i r rest h
    refine .inr ⟨rest, ?_⟩
    cases r with
    | command cmd data => exact .inl ⟨cmd, data, h, rfl⟩
    | read r => exact .inr (.inl ⟨r, h, rfl⟩)
    | reset => exact .inr (.inr ⟨.inl h, rfl⟩)
    | abandoned cmd data => exact .inr (.inr ⟨.inr ⟨cmd, data, h⟩, rfl⟩)

end Sys2Proof.Machine
end

