-- ==== Sys2Proof/Laws/Finalize.lean ====
section
/-! SUPPORT. What the finalizer (43_finalize.md R180, R184) does, said once: one block, or two. -/

namespace Sys2Proof.Machine

/-- FINAL's body when the length field fits the block: `pcount` is 0..55 (43_finalize.md R182). -/
theorem finalBody_one_block (s : State) (h : s.pcount.val ≤ 55) : ∃ b : Block,
    b.toList = s.valid ++ [0x80] ++ List.replicate (55 - s.pcount.val) 0 ++ be64bytes s.bitCount ∧
    finalBody s = { s with h := compress s.h b, pending := b, pcount := 0, lc := .final, blocks := s.blocks ++ [b] } := by
  refine ⟨s.appendMark.lengthBlock (s.pcount.val + 1), ?_, ?_⟩
  · have hb : s.appendMark.bitCount = s.bitCount := rfl
    have := writeBytes_valid s [0x80] (by simp)
    simp only [List.length_singleton] at this
    rw [State.lengthBlock, writeBytes_toList _ _ _ (by simp [be64bytes]), zeroFill_toList _ _ _ (by omega) (by omega), hb]
    simp only [State.appendMark_pending, this]
    rw [List.take_append_of_le_length (by simp; omega), List.take_of_length_le (by simp; omega),
      List.drop_of_length_le (by simp [be64bytes]; omega)]
    simp
  · unfold finalBody State.finalize
    simp only
    rw [if_neg (by omega)]
    rfl

/-- FINAL's body when it does not: `pcount` is 56..63 (43_finalize.md R182). -/
theorem finalBody_two_blocks (s : State) (h : 56 ≤ s.pcount.val) : ∃ b c : Block,
    b.toList = s.valid ++ [0x80] ++ List.replicate (63 - s.pcount.val) 0 ∧
    c.toList = List.replicate 56 0 ++ be64bytes s.bitCount ∧
    finalBody s = { s with h := compress (compress s.h b) c, pending := c, pcount := 0, lc := .final,
                           blocks := s.blocks ++ [b, c] } := by
  have hp := s.pcount.isLt
  refine ⟨zeroFill s.appendMark.pending (s.pcount.val + 1) 64,
    (s.appendMark.spill (s.pcount.val + 1)).lengthBlock 0, ?_, ?_, ?_⟩
  · have := writeBytes_valid s [0x80] (by simp)
    simp only [List.length_singleton] at this
    rw [zeroFill_toList _ _ _ (by omega) (by omega)]
    simp only [State.appendMark_pending, this]
    rw [List.drop_of_length_le (by simp)]
    simp
  · have hb : (s.appendMark.spill (s.pcount.val + 1)).bitCount = s.bitCount := rfl
    rw [State.lengthBlock, writeBytes_toList _ _ _ (by simp [be64bytes]), zeroFill_toList _ _ _ (by omega) (by omega), hb]
    simp [be64bytes]
  · unfold finalBody State.finalize
    simp only
    rw [if_pos (by omega)]
    simp [State.lastBlock, State.spill, State.compressBlock, State.appendMark, State.lengthBlock, State.bitCount]

/-- The bit count as a number of bits modulo 2^64 (43_finalize.md R181). -/
theorem State.bitCount_eq (s : State) : s.bitCount = BitVec.ofNat 64 (s.total.toNat * 8) := by
  apply BitVec.eq_of_toNat_eq
  simp [State.bitCount]

end Sys2Proof.Machine
end

