-- ==== Sys2Proof/Laws/PerInstr.lean ====
section
/-! SUPPORT. Facts about every command as syntax, one lemma a constructor. -/

/-- A well-formed command's command word is one of the nine legal ones (30_encoding.md R72, R73). -/
def Sys2Proof.Laws.EncodesLegal.Statement (i : Sys2Proof.Instr) : Prop :=
  i.wellFormed = true → Sys2Proof.legal (Sys2Proof.encode i).1 = true

theorem Sys2Proof.Laws.EncodesLegal.nop : Sys2Proof.Laws.EncodesLegal.Statement .nop := fun _ => by decide

theorem Sys2Proof.Laws.EncodesLegal.init : Sys2Proof.Laws.EncodesLegal.Statement .init := fun _ => by decide

theorem Sys2Proof.Laws.EncodesLegal.update (n : Nat) (data : Sys2Proof.Word) :
    Sys2Proof.Laws.EncodesLegal.Statement (.update n data) := by
  intro h
  have hn : n < 5 := Nat.lt_succ_of_le (of_decide_eq_true h)
  have all : ∀ m : Fin 5, Sys2Proof.legal (Sys2Proof.encode (.update m.val data)).1 = true := by
    show ∀ m : Fin 5, Sys2Proof.legal (Sys2Proof.commandWord 0x02 (BitVec.ofNat 3 m.val)) = true
    decide
  exact all ⟨n, hn⟩

theorem Sys2Proof.Laws.EncodesLegal.final : Sys2Proof.Laws.EncodesLegal.Statement .final := fun _ => by decide

theorem Sys2Proof.Laws.EncodesLegal.destroy : Sys2Proof.Laws.EncodesLegal.Statement .destroy := fun _ => by decide
end

