-- ==== Sys2Proof/Laws/Update.lean ====
section
/-! SUPPORT. What `update` of Machine/Update.lean does, said once (42_update.md R160): the valid bytes and the new bytes
together, cut into 64-byte groups; the complete ones compressed, the rest kept. -/

namespace Sys2Proof.Machine

/-- The first `k` groups of 64 bytes of a list, as blocks. -/
def splitBlocks : Nat → List Byte → List Block
  | 0, _ => []
  | k + 1, bytes => blockOfBytes (bytes.take 64) :: splitBlocks k (bytes.drop 64)

@[simp] theorem splitBlocks_length (k : Nat) : ∀ bytes : List Byte, (splitBlocks k bytes).length = k := by
  induction k with
  | zero => intro; rfl
  | succ k ih => intro bytes; simp [splitBlocks, ih]

/-- The groups hold the first `64 * k` bytes. -/
theorem blockBytes_splitBlocks (k : Nat) : ∀ bytes : List Byte, 64 * k ≤ bytes.length →
    blockBytes (splitBlocks k bytes) = bytes.take (64 * k) := by
  induction k with
  | zero => intro bytes _; simp [splitBlocks, blockBytes]
  | succ k ih =>
    intro bytes h
    have e : 64 * (k + 1) = 64 + 64 * k := by omega
    have hd := ih (bytes.drop 64) (by simp; omega)
    simp only [blockBytes, splitBlocks, List.flatMap_cons] at hd ⊢
    rw [hd, blockOfBytes_toList _ (by simp; omega), e, List.take_add]

/-- The direct path writes `h` and the trace only. -/
theorem directPath_eq (k : Nat) : ∀ (s : State) (data : List Byte),
    s.directPath k data =
      { s with h := (splitBlocks k data).foldl compress s.h, blocks := s.blocks ++ splitBlocks k data } := by
  induction k with
  | zero => intro s data; simp [State.directPath, splitBlocks]
  | succ k ih => intro s data; simp [State.directPath, splitBlocks, ih, State.compressBlock]

/-- What `update` does with nothing buffered, whole. -/
theorem absorbFromEmpty_eq (s : State) (data : List Byte) :
    s.absorbFromEmpty data =
      { s with h := (splitBlocks (data.length / 64) data).foldl compress s.h,
               blocks := s.blocks ++ splitBlocks (data.length / 64) data,
               pending := writeBytes s.pending 0 (data.drop (64 * (data.length / 64))),
               pcount := Fin.ofNat 64 data.length } := by
  rw [State.absorbFromEmpty, directPath_eq]
  simp only [State.keepRemainder, List.length_drop, State.mk.injEq, true_and, and_true]
  ext; simp; omega

/-- The three paths of `update` (42_update.md R161, R162, R163). -/
theorem update_of_empty {s : State} (data : List Byte) (h : s.pcount = 0) :
    s.update data = (s.countBytes data.length).absorbFromEmpty data := if_pos h

theorem update_of_full {s : State} {data : List Byte} (h : s.pcount ≠ 0) (hf : 64 - s.pcount.val ≤ data.length) :
    s.update data = ((s.countBytes data.length).fillAndCompress (data.take (64 - s.pcount.val))).absorbFromEmpty
      (data.drop (64 - s.pcount.val)) := (if_neg h).trans (if_pos hf)

theorem update_of_partial {s : State} {data : List Byte} (h : s.pcount ≠ 0) (hf : ¬ 64 - s.pcount.val ≤ data.length) :
    s.update data = (s.countBytes data.length).appendPartial data := (if_neg h).trans (if_neg hf)

/-- What `update` does up to the stale bytes: the valid bytes and `data` together, cut into blocks. -/
theorem update_spec (s : State) (data : List Byte) :
    let bytes := s.valid ++ data
    let k := bytes.length / 64
    (s.update data).lc = s.lc ∧ (s.update data).err = s.err ∧
    (s.update data).h = (splitBlocks k bytes).foldl compress s.h ∧
    (s.update data).valid = bytes.drop (64 * k) ∧
    (s.update data).pcount.val = bytes.length % 64 ∧
    (s.update data).total = s.total + BitVec.ofNat 64 data.length ∧
    (s.update data).queue = s.queue ∧ (s.update data).replies = s.replies ∧
    (s.update data).blocks = s.blocks ++ splitBlocks k bytes := by
  have hp := s.pcount.isLt
  intro bytes k
  have hbl : bytes.length = s.pcount.val + data.length := by simp [bytes]
  by_cases h0 : s.pcount = 0
  · -- nothing buffered
    rw [update_of_empty data h0]
    have h0' : s.pcount.val = 0 := by simp [h0]
    have hb : bytes = data := by simp [bytes, State.valid, h0']
    have hk : k = data.length / 64 := by simp [k, hb]
    rw [absorbFromEmpty_eq]
    refine ⟨rfl, rfl, by rw [hk, hb]; rfl, ?_, by rw [hb]; simp, rfl, rfl, rfl, by rw [hk, hb]; rfl⟩
    simp only [State.valid, hb, hk]
    rw [writeBytes_toList _ _ _ (by simp; omega)]
    simp only [List.take_zero, List.nil_append, Fin.val_ofNat]
    rw [List.take_append_of_le_length (by simp; omega), List.take_of_length_le (by simp; omega)]
  by_cases h1 : 64 - s.pcount.val ≤ data.length
  · -- a full block
    rw [update_of_full h0 h1]
    set d1 := data.take (64 - s.pcount.val) with hd1
    set d2 := data.drop (64 - s.pcount.val) with hd2
    have hl1 : d1.length = 64 - s.pcount.val := by simp [d1]; omega
    have hl2 : d2.length = data.length - (64 - s.pcount.val) := by simp [d2]
    have hsplit : bytes = (s.valid ++ d1) ++ d2 := by simp [bytes, d1, d2]
    have hfull : (writeBytes s.pending s.pcount.val d1).toList = s.valid ++ d1 := by
      have := writeBytes_valid s d1 (by omega)
      rwa [List.take_of_length_le (by simp; omega)] at this
    have hlen64 : (s.valid ++ d1).length = 64 := by simp [hl1]
    have hk : k = d2.length / 64 + 1 := by simp only [k, hbl, hl2]; omega
    have htake : bytes.take 64 = s.valid ++ d1 := by
      rw [hsplit, List.take_append_of_le_length (by omega), List.take_of_length_le (by omega)]
    have hdrop : bytes.drop 64 = d2 := by
      rw [hsplit, List.drop_append_of_le_length (by omega), List.drop_of_length_le (by omega)]; rfl
    have hsb : splitBlocks k bytes = writeBytes s.pending s.pcount.val d1 :: splitBlocks (d2.length / 64) d2 := by
      rw [hk, splitBlocks, htake, hdrop, blockOfBytes_eq _ _ hfull]
    rw [absorbFromEmpty_eq]
    refine ⟨rfl, rfl, ?_, ?_, ?_, rfl, rfl, rfl, ?_⟩
    · rw [hsb]; rfl
    · simp only [State.valid]
      rw [writeBytes_toList _ _ _ (by simp; omega)]
      simp only [List.take_zero, List.nil_append, Fin.val_ofNat]
      rw [List.take_append_of_le_length (by simp; omega), List.take_of_length_le (by simp; omega)]
      rw [hk, show 64 * (d2.length / 64 + 1) = 64 + 64 * (d2.length / 64) by omega, ← List.drop_drop, hdrop]
    · simp [hbl, hl2]; omega
    · rw [hsb]; simp [State.countBytes]
  · -- no full block
    rw [update_of_partial h0 h1]
    have hk : k = 0 := by simp only [k, hbl]; omega
    rw [hk]
    refine ⟨rfl, rfl, rfl, ?_, ?_, rfl, rfl, rfl, by simp [splitBlocks]⟩
    · have := writeBytes_valid s data (by omega)
      simp only [State.valid, State.appendPartial_pending, State.appendPartial_pcount, State.countBytes_pending, State.countBytes_pcount, Fin.val_ofNat]
      rw [Nat.mod_eq_of_lt (by omega), this]; simp [bytes]
    · simp [hbl]

end Sys2Proof.Machine
end

