-- ==== Sys2Proof/Laws/Run.lean ====
section
/-! SUPPORT. What serving transactions does to the host's side of the state, said once: what waits stays as it is, replies
are added at the end, and neither makes a difference to anything else (20_memory.md R60, R66). -/

namespace Sys2Proof.Machine

/-- How many words a transaction returns: a reset returns nothing (20_memory.md R65, 70_reset_and_hazards.md R231). -/
def Request.replyCount : Request → Nat
  | .command _ _ => 1
  | .read _ => 1
  | .reset => 0
  | .abandoned _ _ => 0

/-- `update` neither reads nor writes the host's side. -/
theorem update_host (s : State) (q : List Request) (p : List Reply) (data : List Byte) :
    ({ s with queue := q, replies := p } : State).update data = { s.update data with queue := q, replies := p } := by
  unfold State.update State.absorbFromEmpty
  simp only [State.countBytes, directPath_eq]
  split_ifs <;> simp [State.keepRemainder, State.fillAndCompress, State.compressBlock, State.appendPartial]

/-- FINAL's body neither reads nor writes the host's side. -/
theorem finalBody_host (s : State) (q : List Request) (p : List Reply) :
    finalBody { s with queue := q, replies := p } = { finalBody s with queue := q, replies := p } := by
  unfold finalBody State.finalize
  simp only [State.appendMark]
  split <;> rfl

/-- A legal command whose body keeps off the host's side adds one reply. -/
theorem run_host (pre : Lc → Bool) (code : ErrCode) (body : State → State) (s : State)
    (hb : ∀ q p, body { s with queue := q, replies := p } = { body s with queue := q, replies := p }) :
    ∃ (t : State) (w : Reply), ∀ q p, ({ s with queue := q, replies := p } : State).run pre code body =
      { t with queue := q, replies := p ++ [w] } := by
  cases h : pre s.lc
  · exact ⟨s.fail code, .status (s.fail code).status, fun q p => by simp only [State.run, h]; rfl⟩
  · exact ⟨(body s).respond .ok, .status ((body s).respond .ok).status, fun q p => by
      rw [State.run, hb, if_pos h]; rfl⟩

/-- What serving a transaction does to the host's side. -/
theorem serve_host (r : Request) (s : State) : ∃ (t : State) (ws : List Reply), ws.length = r.replyCount ∧
    ∀ q p, serve r { s with queue := q, replies := p } = .next { t with queue := q, replies := p ++ ws } := by
  have one : ∀ (pre : Lc → Bool) (code : ErrCode) (body : State → State),
      (∀ q p, body { s with queue := q, replies := p } = { body s with queue := q, replies := p }) →
      ∃ (t : State) (ws : List Reply), ws.length = 1 ∧ ∀ q p,
        (.next (({ s with queue := q, replies := p } : State).run pre code body) : Host.Outcome State Fault Refusal) =
          .next { t with queue := q, replies := p ++ ws } := by
    intro pre code body hb
    obtain ⟨t, w, h⟩ := run_host pre code body s hb
    exact ⟨t, [w], rfl, fun q p => by rw [h]⟩
  cases r with
  | command cmd data =>
    simp only [serve, serveCommand]
    split
    · rename_i i _
      cases i with
      | nop => exact one _ _ _ fun _ _ => rfl
      | init => exact one _ _ _ fun _ _ => rfl
      | update n d => exact one _ _ _ fun q p => update_host s q p _
      | final => exact one _ _ _ (finalBody_host s)
      | destroy => exact one _ _ _ fun _ _ => rfl
    · exact ⟨s.fail .illegal, [.status (s.fail .illegal).status], rfl, fun _ _ => rfl⟩
  | read x => exact ⟨s, [.rdata (s.readWord x)], rfl, fun _ _ => rfl⟩
  | reset => exact ⟨s.serveReset, [], rfl, fun _ p => by rw [List.append_nil]; rfl⟩
  | abandoned cmd data => exact ⟨s.serveReset, [], rfl, fun _ p => by rw [List.append_nil]; rfl⟩

/-- What serving transactions one after another does to the host's side. -/
theorem serveAll_host (rs : List Request) : ∀ s : State, ∃ (t : State) (ws : List Reply),
    ws.length = (rs.map Request.replyCount).sum ∧
    ∀ q p, serveAll rs { s with queue := q, replies := p } = .next { t with queue := q, replies := p ++ ws } := by
  induction rs with
  | nil => intro s; exact ⟨s, [], rfl, fun q p => by rw [List.append_nil]; rfl⟩
  | cons r rs ih =>
    intro s
    obtain ⟨t, ws, hl, h⟩ := serve_host r s
    obtain ⟨u, vs, kl, k⟩ := ih t
    refine ⟨u, ws ++ vs, by simp [hl, kl], fun q p => ?_⟩
    simp only [serveAll, h, k, List.append_assoc]

/-- A program is what it holds through its last command and what it holds after. -/
theorem throughLastCommand_append (program : List Request) :
    throughLastCommand program ++ afterLastCommand program = program := by
  induction program with
  | nil => rfl
  | cons r rs ih =>
    unfold afterLastCommand at ih ⊢
    unfold throughLastCommand
    split
    · simpa using ih
    · rfl

/-- No command stands after the last one. -/
theorem afterLastCommand_no_command (program : List Request) :
    (afterLastCommand program).any Request.isCommand = false := by
  induction program with
  | nil => rfl
  | cons r rs ih =>
    unfold afterLastCommand at ih ⊢
    unfold throughLastCommand
    split
    · simpa using ih
    · rename_i h
      exact Bool.eq_false_iff.mpr h

end Sys2Proof.Machine
end

