-- ==== Sys2Proof/Tests/Slice0.lean ====
section
/-! SUPPORT. The model's own tests, each against a value spec/ states (95_test_vectors.md unless another file is named),
and one witness theorem for every statement that has hypotheses. -/

namespace Sys2Proof.Tests

open Sys2Proof.Machine

/-- The state an outcome goes on in. -/
def after : Host.Outcome State Fault Refusal → Option State
  | .next s => some s
  | .fault _ => none
  | .refused _ => none

/-- STATUS in the state an outcome goes on in. -/
def statusAfter (o : Host.Outcome State Fault Refusal) : Option Word := (after o).map State.status

/-- The hash words in the state an outcome goes on in. -/
def hashAfter (o : Host.Outcome State Fault Refusal) : Option (List Word) := (after o).map (·.h.toList)

/-- A state with a lifecycle state, hash words IV, the first bytes of `pending`, and as many bytes counted. -/
def st (lc : Lc) (bytes : List Byte) : State :=
  { State.reset with lc := lc, h := iv, pending := writeBytes zeroBlock 0 bytes, pcount := Fin.ofNat 64 bytes.length,
                     total := BitVec.ofNat 64 bytes.length }

def idle : State := State.reset
def active3 : State := st .active [0x61, 0x62, 0x63]
def activeAs (n : Nat) : State := st .active (List.replicate n 0x61)
def final0 : State := st .final []

/-! ## WellFormed smoke (30_encoding.md R73: N in 5..7 is no UPDATE) -/

theorem test_wellFormed_refuses_update_5 : (Instr.update 5 0x61626364).wellFormed = false := by decide
theorem test_wellFormed_takes_update_4 : (Instr.update 4 0x61626364).wellFormed = true := by decide

/-! ## Decoding: OPC 31:24, RSV 23:3, N 2:0 written out (30_encoding.md R71, R72; L2-6) -/

theorem test_decode_nop : decode 0b00000000_000000000000000000000_000#32 0xffffffff = .ok .nop := by decide
theorem test_decode_init : decode 0b00000001_000000000000000000000_000#32 0xffffffff = .ok .init := by decide
theorem test_decode_update : decode 0b00000010_000000000000000000000_011#32 0x61626300 = .ok (.update 3 0x61626300) := by
  decide
theorem test_decode_final : decode 0b00000011_000000000000000000000_000#32 0 = .ok .final := by decide
theorem test_decode_destroy : decode 0b00000100_000000000000000000000_000#32 0 = .ok .destroy := by decide
theorem test_decode_illegal_rsv_top : decode 0x00800000 0 = .error .reservedBits := by decide
theorem test_decode_illegal_all_ones : decode 0xffffffff 0 = .error .reservedBits := by decide
theorem test_decode_illegal_opcode : decode 0x05000000 0 = .error .reservedOpcode := by decide
theorem test_encode_ascii_abc : (AsmLine.ascii "abc").requests = [.command 0x02000003 0x61626300] := by decide
theorem test_table_word : decodeTableWord 32 0x02000002 = some (.update 2 0) := by decide

/-! ## Bit functions, schedule and compression (L2-1, L2-3, L2-5) -/

theorem test_rotr : rotr 0x12345678 25 = 0x1a2b3c09 := by decide
theorem test_sigmas : bigSigma0 0x12345678 = 0x66146474 ∧ bigSigma1 0x12345678 = 0x3561abda ∧
    smallSigma0 0x12345678 = 0xe7fce6ee ∧ smallSigma1 0x12345678 = 0xa1f78649 := by decide
theorem test_ch_maj : ch 0x510e527f 0x9b05688c 0x1f83d9ab = 0x1f85c98c ∧
    maj 0x6a09e667 0xbb67ae85 0x3c6ef372 = 0x3a6fe667 := by decide
theorem test_compress_zero_block : (compress iv zeroBlock).toList =
    [0xda5698be, 0x17b9b469, 0x62335799, 0x779fbeca, 0x8ce5d491, 0xc0d26243, 0xbafef9ea, 0x1837a9d8] := by decide +kernel

/-! ## The commands (L2-7, L2-8, L1-1, L1-2) -/

theorem test_nop_active : statusAfter (exec .nop active3) = some 0x00000301 := by decide
theorem test_init_idle : statusAfter (exec .init idle) = some 0x00000001 ∧
    (hashAfter (exec .init idle)).map (·.head?) = some (some 0x6a09e667) := by decide
theorem test_init_refused : statusAfter (exec .init active3) = some 0x00000331 ∧
    statusAfter (exec .init final0) = some 0x00000032 := by decide
theorem test_update_carries_two_bytes :
    statusAfter (exec (.update 4 0x6161dead) (activeAs 62)) = some 0x00000201 ∧
    ((after (exec (.update 4 0x6161dead) (activeAs 62))).map fun t => (t.pending.toList.take 2, t.total, t.h.toList)) =
      some ([0xde, 0xad], 66, [0xdf5bb81c, 0xe81e0626, 0xfb45a894, 0x4fd40f31, 0xb25e6816, 0xd6d499c1, 0xab904929,
        0x00635e66]) := by decide +kernel
theorem test_update_fills_the_block :
    hashAfter (exec (.update 1 0x61000000) (activeAs 63)) = some [0xdf5bb81c, 0xe81e0626, 0xfb45a894, 0x4fd40f31,
      0xb25e6816, 0xd6d499c1, 0xab904929, 0x00635e66] ∧
    statusAfter (exec (.update 1 0x61000000) (activeAs 63)) = some 0x00000001 := by decide +kernel
theorem test_final_abc : hashAfter (exec .final active3) = some [0xba7816bf, 0x8f01cfea, 0x414140de, 0x5dae2223, 0xb00361a3,
    0x96177a9c, 0xb410ff61, 0xf20015ad] ∧ statusAfter (exec .final active3) = some 0x00000002 := by decide +kernel
theorem test_final_two_blocks : hashAfter (exec .final (activeAs 56)) = some [0xb35439a4, 0xac6f0948, 0xb6d6f9e3,
    0xc6af0f5f, 0x590ce20f, 0x1bde7090, 0xef797068, 0x6ec6738a] := by decide +kernel
theorem test_destroy_active : statusAfter (exec .destroy active3) = some 0x00000000 ∧
    hashAfter (exec .destroy active3) = some (List.replicate 8 0) := by decide
theorem test_destroy_idle : statusAfter (exec .destroy idle) = some 0x00000020 := by decide
theorem test_illegal_word_active : statusAfter (serveCommand 0x02000005 0x61626364 active3) = some 0x00000311 := by decide
theorem test_step_runs_the_word_placed : statusAfter (step (State.reset.withFetchWord 32 0x01000000)) = some 0x00000001 := by
  decide

/-! ## Witnesses: hypotheses of the statements, met -/

/-- Some transactions waiting. -/
def waiting (q : List Request) (s : State) : State := { s with queue := q }

theorem witness_reset : (waiting [.reset, .read 0] active3).queue = .reset :: [.read 0] := rfl
theorem witness_abandoned : (waiting [.abandoned 0x03000000 0] active3).queue = .abandoned 0x03000000 0 :: [] := rfl
theorem witness_read_space_idle : State.reset.Inv ∧ State.reset.lc = .idle :=
  ⟨⟨fun _ => ⟨rfl, rfl, rfl, rfl⟩, (fun h => nomatch h), (fun h => nomatch h)⟩, rfl⟩
theorem witness_read_space_reserved : (0x3 : BitVec 4).toNat = 0x3 ∧ (0x7 : BitVec 4).toNat = 0x7 := by decide
theorem witness_read_space_active : (st .active []).Inv ∧ (st .active []).lc = .active :=
  ⟨⟨(fun h => nomatch h), fun _ => ⟨by decide, [], by decide, by decide, by decide, [], rfl, rfl⟩, (fun h => nomatch h)⟩, rfl⟩
/-- FINAL after the empty message. -/
def finalEmpty : State := { st .final [] with h := compress iv (blockOfBytes (padded [])) }
theorem witness_read_space_final : finalEmpty.Inv ∧ finalEmpty.lc = .final :=
  ⟨⟨(fun h => nomatch h), (fun h => nomatch h),
    fun _ => ⟨by decide, [], by decide, [blockOfBytes (padded [])], by decide +kernel, rfl⟩⟩, rfl⟩
theorem witness_reads : (waiting [.read 0x0, .read 0x7, .read 0xF, .reset] active3).queue =
    [0x0, 0x7, 0xF].map .read ++ [.reset] := rfl
theorem witness_read_changes : ∃ t, step (waiting [.command 0x01000000 0] idle) = .next t ∧
    t.readWord 0x0 ≠ (waiting [.command 0x01000000 0] idle).readWord 0x0 := ⟨_, rfl, by decide⟩
theorem witness_illegal_word : legal 0x05000000 = false ∧ legal 0x02000005 = false ∧ legal 0x00000008 = false ∧
    legal 0x04000001 = false := by decide
theorem witness_legal_words : legal 0x00000000 = true ∧ legal 0x01000000 = true ∧ legal 0x02000004 = true ∧
    legal 0x03000000 = true ∧ legal 0x04000000 = true := by decide
theorem witness_wellFormed : (Instr.update 4 7).wellFormed = true ∧ (Instr.update 0 7).wellFormed = true := by decide
theorem witness_decoded : decode 0x02000004 7 = .ok (.update 4 7) ∧ decode 0x04000000 7 = .ok .destroy := by decide
theorem witness_operand_bytes : 4 ≤ 4 ∧ 3 < 4 ∧
    (0x6162ffff : Word).toNat / 2 ^ (32 - 8 * 2) = (0x61620000 : Word).toNat / 2 ^ (32 - 8 * 2) ∧
    (0xffffffff : Word).toNat / 2 ^ (32 - 8 * 0) = (0 : Word).toNat / 2 ^ (32 - 8 * 0) ∧
    (0x03000000 : Word).toNat / 2 ^ 24 ≠ 0x02 := by decide
theorem witness_step : (waiting [.command 0x01000000 5] idle).queue = .command 0x01000000 5 :: [] ∧
    decode 0x01000000 5 = .ok .init ∧ decodeTableWord 32 0x01000000 = some .init ∧
    (waiting [.command 0x05000000 5] idle).queue = .command 0x05000000 5 :: [] ∧
    decode 0x05000000 5 = .error .reservedOpcode := by decide
theorem witness_idle_block : active3.queue = [] := rfl
theorem witness_only_a_command : ∃ t, step (waiting [.command 0x01000000 0] idle) = .next t ∧ ¬ (t.ObsEq idle) :=
  ⟨_, rfl, by intro h; cases h.1⟩
theorem witness_order : (waiting [.read 1, .command 0 0, .reset] idle).queue = [.read 1, .command 0 0] ++ [.reset] := rfl
theorem witness_priority : legal 0x02000007 = false ∧ decode 0x00000000 0 = .ok .nop ∧ decode 0x01000000 0 = .ok .init ∧
    decode 0x02000001 0 = .ok (.update 1 0) ∧ decode 0x03000000 0 = .ok .final ∧ decode 0x04000000 0 = .ok .destroy := by
  decide
theorem witness_failed : ∃ t, serveCommand 0x01000000 0 active3 = .next t ∧ t.err ≠ .ok ∧ active3.lc = .active :=
  ⟨_, rfl, (fun h => nomatch h), rfl⟩
theorem witness_err : decode 0x03000000 0 = .ok .final ∧ lifecycleResult .final .active = .ok := by decide
theorem witness_transitions_fail : ∃ t, serveCommand 0x02000000 0 final0 = .next t ∧ t.err ≠ .ok :=
  ⟨_, rfl, (fun h => nomatch h)⟩
theorem witness_transitions_ok : ∃ t, serveCommand 0x04000000 0 final0 = .next t ∧ t.err = .ok := ⟨_, rfl, rfl⟩
theorem witness_transitions_listed : idle.lc = .idle ∧ active3.lc = .active ∧ final0.lc ≠ .idle ∧
    (Instr.update 4 0).wellFormed = true := by decide
theorem witness_init : idle.lc = .idle ∧ active3.lc ≠ .idle ∧ final0.lc ≠ .idle := by decide
theorem witness_init_leaves_idle : ∃ t, exec .init idle = .next t ∧ t.lc ≠ .idle := ⟨_, rfl, (fun h => nomatch h)⟩
theorem witness_destroy : active3.lc ≠ .idle ∧ final0.lc ≠ .idle ∧ idle.lc = .idle := by decide
theorem witness_rotr : 0 < 25 ∧ 25 < 32 ∧ 31 < 32 := by decide
theorem witness_shift : (3 = 3 ∨ 3 = 10) ∧ (10 = 3 ∨ 10 = 10) ∧ 32 - 3 ≤ 29 ∧ 32 - 10 ≤ 22 := by decide
theorem witness_bits : 0 < 32 ∧ 31 < 32 := by decide
theorem witness_schedule : 0 < 16 ∧ 15 < 16 ∧ 16 ≤ 16 ∧ 16 < 64 ∧ 16 ≤ 63 ∧ 63 < 64 := by decide
theorem witness_rounds : 0 < 64 ∧ 63 < 64 := by decide
theorem witness_update_appends : (activeAs 59).lc = .active ∧ 4 ≤ 4 ∧ (activeAs 59).pcount.val + 4 < 64 ∧
    (activeAs 63).lc = .active ∧ (activeAs 63).pcount.val + 0 < 64 := by decide
theorem witness_update_fills : (activeAs 60).lc = .active ∧ 4 ≤ 4 ∧ 64 ≤ (activeAs 60).pcount.val + 4 ∧
    (activeAs 63).lc = .active ∧ 1 ≤ 4 ∧ 64 ≤ (activeAs 63).pcount.val + 1 := by decide
theorem witness_update_refused : idle.lc ≠ .active ∧ final0.lc ≠ .active := by decide
theorem witness_update_illegal : opcField 0x02000005 = 0x02 ∧ 4 < (nField 0x02000005).toNat ∧ opcField 0x02000100 = 0x02 ∧
    rsvField 0x02000100 ≠ 0 := by decide
theorem witness_update_frame : (activeAs 62).lc = .active ∧ 4 ≤ 4 ∧ 64 ≤ (activeAs 62).pcount.val + 4 ∧
    (activeAs 0).lc = .active ∧ (activeAs 0).pcount.val + 4 < 64 := by decide
theorem witness_direct_path : 64 * 2 ≤ (List.replicate 130 (0x61 : Byte)).length ∧ 64 * 0 ≤ ([] : List Byte).length := by
  simp
theorem witness_update_count : (activeAs 60).lc = .active ∧ 4 ≤ 4 := by decide
theorem witness_total : (activeAs 60).lc = .active ∧ 4 ≤ 4 ∧ idle.lc = .idle ∧ final0.lc ≠ .idle := by decide
theorem witness_hash_words_live : (activeAs 63).lc = .active ∧
    ∃ t, step (waiting [.command 0x02000001 0x61000000] (activeAs 63)) = .next t ∧ t.lc ≠ .idle :=
  ⟨rfl, _, rfl, (fun h => nomatch h)⟩
theorem witness_hash_words_change :
    ∃ t, step (waiting [.reset] active3) = .next t ∧ t.h ≠ active3.h := ⟨_, rfl, by decide⟩
/-- The operands of UPDATE commands that carry "abc", in two ways. -/
def abcWhole : List (Nat × Word) := [(3, 0x61626300)]
def abcSplit : List (Nat × Word) := [(0, 0xdeadbeef), (2, 0x6162ffff), (1, 0x63000000)]
theorem witness_absorbed : idle.lc = .idle ∧ ∀ o ∈ abcSplit, o.1 ≤ 4 := by decide
theorem witness_final_one_block : (activeAs 0).lc = .active ∧ (activeAs 0).pcount.val ≤ 55 ∧ (activeAs 55).lc = .active ∧
    (activeAs 55).pcount.val ≤ 55 := by decide
theorem witness_final_two_blocks : (activeAs 56).lc = .active ∧ 56 ≤ (activeAs 56).pcount.val ∧ (activeAs 63).lc = .active ∧
    56 ≤ (activeAs 63).pcount.val := by decide
theorem witness_final_refused : idle.lc ≠ .active ∧ final0.lc ≠ .active := by decide
theorem witness_final_illegal : opcField 0x03000001 = 0x03 ∧ (0x03000001 : Word) ≠ 0x03000000 := by decide
theorem witness_final_count : (activeAs 56).lc = .active ∧ idle.lc = .idle ∧ ∀ o ∈ abcWhole, o.1 ≤ 4 := by decide
theorem witness_single_use : final0.lc = .final := rfl
theorem witness_padded : idle.lc = .idle ∧ ∀ o ∈ abcWhole, o.1 ≤ 4 := by decide
theorem witness_message_alone : idle.lc = .idle ∧ (waiting [.read 0] idle).lc = .idle ∧ (∀ o ∈ abcWhole, o.1 ≤ 4) ∧
    (∀ o ∈ abcSplit, o.1 ≤ 4) ∧ carried abcWhole = carried abcSplit := by decide
theorem witness_invariant_step : State.reset.Inv ∧ step State.reset = .next State.reset :=
  ⟨witness_read_space_idle.1, rfl⟩
theorem witness_invariant_run : ∃ t,
    stepMany 2 { State.reset with queue := [.command 0x01000000 0, .command 0x02000003 0x61626300] } = .next t := ⟨_, rfl⟩
/-- `active3` with other stale bytes. -/
def active3Stale : State := { active3 with pending := writeBytes (Vector.replicate 64 0xff) 0 [0x61, 0x62, 0x63] }
theorem witness_stale : active3.ObsEq active3Stale ∧ active3.queue = active3Stale.queue ∧
    active3.pending ≠ active3Stale.pending := ⟨⟨rfl, rfl, rfl, by decide, rfl, rfl⟩, rfl, by decide⟩
/-- INIT, reading H0 (10_state.md R30), a reset, which returns nothing: the run ends at INIT's response. -/
theorem test_run_ends_at_the_last_command :
    (match State.reset.observe [.command 0x01000000 0, .read 0x8, .reset] with
      | .next o => some (o.results, o.state.lc)
      | _ => none) = some ([.status 0x00000001, .rdata 0x6a09e667], .active) := by decide
theorem test_asm_update : (AsmLine.update 2 0x6162ffff).requests = [.command 0x02000002 0x6162ffff] := by decide
theorem witness_run : (∀ r ∈ [Request.command 0x01000000 0, .read 0x8], (∃ cmd data, r = .command cmd data) ∨
      ∃ x, r = .read x) ∧ [Request.command 0x01000000 0, .read 0x8].drop 1 = [0x8].map .read ∧
    (waiting [.read 0x8] active3).runEnded = true ∧
    ∃ v, stepMany 0 { idle with queue := [.command 0x01000000 0, .read 0x8] } = .next v ∧ v.runEnded = false := by
  refine ⟨?_, rfl, rfl, _, rfl, rfl⟩
  intro r hr
  simp only [List.mem_cons, List.not_mem_nil, or_false] at hr
  rcases hr with rfl | rfl
  · exact .inl ⟨_, _, rfl⟩
  · exact .inr ⟨_, rfl⟩
theorem witness_instances : [idle, active3][1]? = some active3 := rfl

end Sys2Proof.Tests
end

/-! # The state: what each command does to it

SUPPORT. Each command is an entry of the lifecycle table (40_lifecycle.md R100) and a body; the two bodies that compress,
UPDATE's and FINAL's, both cut bytes into 64-byte blocks. Said once here, field by field, for the proofs below. -/

namespace Sys2Proof.Machine

/-! ## Command words -/

/-- A command word bit by bit: its count, 21 zeros, its opcode (30_encoding.md R71). -/
theorem commandWord_getLsbD (opc : BitVec 8) (n : BitVec 3) (i : Nat) : (commandWord opc n).getLsbD i =
    if i < 3 then n.getLsbD i else if i < 24 then false else opc.getLsbD (i - 24) := by
  show BitVec.getLsbD (w := 8 + 21 + 3) (opc ++ 0#21 ++ n) i = _
  rw [BitVec.getLsbD_append, BitVec.getLsbD_append, Nat.sub_sub]
  split_ifs <;> simp <;> omega

@[simp] theorem opcField_commandWord (opc : BitVec 8) (n : BitVec 3) : opcField (commandWord opc n) = opc := by
  ext i hi
  simp [opcField, BitVec.getElem_extractLsb', commandWord_getLsbD, BitVec.getLsbD_eq_getElem hi,
    show ¬ 24 + i < 3 by omega]

@[simp] theorem rsvField_commandWord (opc : BitVec 8) (n : BitVec 3) : rsvField (commandWord opc n) = 0 := by
  ext i hi
  simp [rsvField, BitVec.getElem_extractLsb', commandWord_getLsbD, show 3 + i < 24 by omega]

@[simp] theorem nField_commandWord (opc : BitVec 8) (n : BitVec 3) : nField (commandWord opc n) = n := by
  ext i hi
  simp [nField, BitVec.getElem_extractLsb', commandWord_getLsbD, hi]

/-- Decoding undoes encoding (30_encoding.md R75). -/
theorem decode_encode {i : Instr} (h : i.wellFormed = true) : decode (encode i).1 (encode i).2 = .ok i := by
  cases i with
  | nop | init | final | destroy => rfl
  | update n data =>
    have hn : n ≤ 4 := of_decide_eq_true h
    simp [encode, decode, decodeUpdate, hn, Nat.mod_eq_of_lt (show n < 8 by omega)]

/-! ## Commands as a table entry and a body -/

/-- What a command does when its precondition holds, before `err` and the response. -/
def bodyOf : Instr → State → State
  | .nop => id
  | .init => initBody
  | .update n data => (·.update (dataBytes data n))
  | .final => finalBody
  | .destroy => destroyBody

/-- Every command runs its body where the lifecycle table says OK, and fails with the table's code where it does not
(40_lifecycle.md R100). -/
theorem exec_eq (i : Instr) (s : State) :
    exec i s = .next (if lifecycleResult i s.lc = .ok then (bodyOf i s).respond .ok
      else s.fail (lifecycleResult i s.lc)) := by
  obtain ⟨lc, _⟩ := s
  cases i <;> cases lc <;> rfl

/-! Where the table says OK (40_lifecycle.md R100, the preconditions). -/

@[simp] theorem lifecycleResult_nop (l : Lc) : lifecycleResult .nop l = .ok := rfl

@[simp] theorem lifecycleResult_init_ok (l : Lc) : lifecycleResult .init l = .ok ↔ l = .idle := by
  cases l <;> decide

@[simp] theorem lifecycleResult_update_ok (n : Nat) (data : Word) (l : Lc) :
    lifecycleResult (.update n data) l = .ok ↔ l = .active := by
  cases l <;> simp [lifecycleResult]

@[simp] theorem lifecycleResult_final_ok (l : Lc) : lifecycleResult .final l = .ok ↔ l = .active := by
  cases l <;> decide

@[simp] theorem lifecycleResult_destroy_ok (l : Lc) : lifecycleResult .destroy l = .ok ↔ l ≠ .idle := by
  cases l <;> decide

theorem exec_of_ok {i : Instr} {s : State} (h : lifecycleResult i s.lc = .ok) :
    exec i s = .next ((bodyOf i s).respond .ok) := by
  rw [exec_eq, if_pos h]

theorem exec_of_fail {i : Instr} {s : State} (h : lifecycleResult i s.lc ≠ .ok) :
    exec i s = .next (s.fail (lifecycleResult i s.lc)) := by
  rw [exec_eq, if_neg h]

theorem serveCommand_of_decode {cmd data : Word} {i : Instr} (s : State) (h : decode cmd data = .ok i) :
    serveCommand cmd data s = exec i s := by
  simp only [serveCommand, h]

theorem serveCommand_of_illegal {cmd data : Word} {e : Illegal} (s : State) (h : decode cmd data = .error e) :
    serveCommand cmd data s = .next (s.fail .illegal) := by
  simp only [serveCommand, h]

/-- The two ends of any command word: a decoded command's body, or a failure. -/
theorem serveCommand_ends (cmd data : Word) (s : State) :
    (∃ i, decode cmd data = .ok i ∧ lifecycleResult i s.lc = .ok ∧
      serveCommand cmd data s = .next ((bodyOf i s).respond .ok)) ∨
    ∃ e, e ≠ .ok ∧ serveCommand cmd data s = .next (s.fail e) := by
  cases hd : decode cmd data with
  | error e => exact .inr ⟨.illegal, by decide, serveCommand_of_illegal s hd⟩
  | ok i =>
    rw [serveCommand_of_decode s hd]
    by_cases hl : lifecycleResult i s.lc = .ok
    · exact .inl ⟨i, rfl, hl, exec_of_ok hl⟩
    · exact .inr ⟨_, hl, exec_of_fail hl⟩

/-- What the next state of a step can be. -/
theorem step_outcomes {s t : State} (h : step s = .next t) :
    t = s ∨ ∃ rest : List Request,
      (∃ i, lifecycleResult i s.lc = .ok ∧ t = (bodyOf i { s with queue := rest }).respond .ok) ∨
      (∃ e, t = ({ s with queue := rest } : State).fail e) ∨
      (∃ r, t = ({ s with queue := rest } : State).serveRead r) ∨
      t = ({ s with queue := rest } : State).serveReset := by
  obtain ⟨-, hs⟩ | ⟨rest, ⟨cmd, data, -, hs⟩ | ⟨r, -, hs⟩ | ⟨-, hs⟩⟩ := step_cases s
  · rw [hs] at h
    cases h
    exact .inl rfl
  · obtain ⟨i, -, hl, hc⟩ | ⟨e, -, hc⟩ := serveCommand_ends cmd data { s with queue := rest } <;>
      rw [hs, hc] at h <;> cases h
    · exact .inr ⟨rest, .inl ⟨i, hl, rfl⟩⟩
    · exact .inr ⟨rest, .inr (.inl ⟨e, rfl⟩)⟩
  · rw [hs] at h
    cases h
    exact .inr ⟨rest, .inr (.inr (.inl ⟨r, rfl⟩))⟩
  · rw [hs] at h
    cases h
    exact .inr ⟨rest, .inr (.inr (.inr rfl))⟩

/-- What every step keeps, any number of steps keep. -/
theorem stepMany_keeps {P : State → Prop} (hstep : ∀ s t, P s → step s = .next t → P t) (k : Nat) :
    ∀ s t, P s → stepMany k s = .next t → P t := by
  induction k with
  | zero =>
    intro s t hs h
    cases h
    exact hs
  | succ k ih =>
    intro s t hs h
    rw [stepMany] at h
    split at h
    next u hu => exact ih u t (hstep s u hs hu) h
    next => cases h
    next => cases h

/-! ## Bytes cut into blocks -/

/-- The complete 64-byte blocks of a byte list. -/
def wholeBlocks (bytes : List Byte) : List Block := splitBlocks (bytes.length / 64) bytes

theorem blockBytes_append (bs cs : List Block) : blockBytes (bs ++ cs) = blockBytes bs ++ blockBytes cs :=
  List.flatMap_append

theorem blockBytes_wholeBlocks (bytes : List Byte) :
    blockBytes (wholeBlocks bytes) = bytes.take (64 * (bytes.length / 64)) :=
  blockBytes_splitBlocks _ _ (by omega)

/-- A first block, then the rest. -/
theorem wholeBlocks_block_append (b : Block) (bytes : List Byte) :
    wholeBlocks (b.toList ++ bytes) = b :: wholeBlocks bytes := by
  have hk : (b.toList ++ bytes).length / 64 = bytes.length / 64 + 1 := by simp
  have hb : (b.toList ++ bytes).take 64 = b.toList := List.take_left' (by simp)
  have hr : (b.toList ++ bytes).drop 64 = bytes := List.drop_left' (by simp)
  rw [wholeBlocks, hk, splitBlocks, hb, hr, blockOfBytes_eq b _ rfl, wholeBlocks]

/-- The 64 bytes of one block. -/
theorem wholeBlocks_block (b : Block) : wholeBlocks b.toList = [b] := by
  rw [← List.append_nil b.toList, wholeBlocks_block_append]
  rfl

/-- Compressing the complete blocks of more bytes appends those bytes to what is hashed. -/
theorem HashOf.append_wholeBlocks {h : HashWords} {bytes : List Byte} (hh : HashOf h bytes) (more : List Byte) :
    HashOf ((wholeBlocks more).foldl compress h) (bytes ++ more.take (64 * (more.length / 64))) := by
  obtain ⟨bs, hbs, rfl⟩ := hh
  exact ⟨bs ++ wholeBlocks more, by rw [blockBytes_append, hbs, blockBytes_wholeBlocks], by rw [List.foldl_append]⟩

theorem State.valid_of_pcount_zero {s : State} (h : s.pcount = 0) : s.valid = [] := by
  simp [State.valid, h]

/-! ## UPDATE, field by field -/

@[simp] theorem State.update_lc (s : State) (data : List Byte) : (s.update data).lc = s.lc := by
  obtain ⟨h, -⟩ := update_spec s data
  exact h

@[simp] theorem State.update_err (s : State) (data : List Byte) : (s.update data).err = s.err := by
  obtain ⟨-, h, -⟩ := update_spec s data
  exact h

theorem State.update_h (s : State) (data : List Byte) :
    (s.update data).h = (wholeBlocks (s.valid ++ data)).foldl compress s.h := by
  obtain ⟨-, -, h, -⟩ := update_spec s data
  exact h

theorem State.update_valid (s : State) (data : List Byte) :
    (s.update data).valid = (s.valid ++ data).drop (64 * ((s.valid ++ data).length / 64)) := by
  obtain ⟨-, -, -, h, -⟩ := update_spec s data
  exact h

theorem State.update_pcount (s : State) (data : List Byte) :
    (s.update data).pcount.val = (s.pcount.val + data.length) % 64 := by
  obtain ⟨-, -, -, -, h, -⟩ := update_spec s data
  simpa using h

@[simp] theorem State.update_total (s : State) (data : List Byte) :
    (s.update data).total = s.total + BitVec.ofNat 64 data.length := by
  obtain ⟨-, -, -, -, -, h, -⟩ := update_spec s data
  exact h

@[simp] theorem State.update_queue (s : State) (data : List Byte) : (s.update data).queue = s.queue := by
  obtain ⟨-, -, -, -, -, -, h, -⟩ := update_spec s data
  exact h

@[simp] theorem State.update_replies (s : State) (data : List Byte) : (s.update data).replies = s.replies := by
  obtain ⟨-, -, -, -, -, -, -, h, -⟩ := update_spec s data
  exact h

theorem State.update_blocks (s : State) (data : List Byte) :
    (s.update data).blocks = s.blocks ++ wholeBlocks (s.valid ++ data) := by
  obtain ⟨-, -, -, -, -, -, -, -, h⟩ := update_spec s data
  exact h

theorem dataBytes_length {n : Nat} (data : Word) (h : n ≤ 4) : (dataBytes data n).length = n := by
  simp [dataBytes, be32bytes, h]

/-! ## FINAL, field by field -/

/-- What FINAL compresses after the valid bytes: 0x80, zeros, the bit count (43_finalize.md R180). -/
def State.padding (s : State) : List Byte :=
  [0x80] ++ List.replicate ((119 - s.pcount.val) % 64) 0 ++ be64bytes s.bitCount

/-- The valid bytes and the padding fill their blocks. -/
theorem State.padding_fills (s : State) : (s.valid ++ s.padding).length % 64 = 0 := by
  have hp := s.pcount.isLt
  simp [State.padding, be64bytes]
  omega

/-- FINAL's body, whole: one block or two, the valid bytes and the padding (43_finalize.md R180, R182). -/
theorem finalBody_eq (s : State) : ∃ pending : Block, finalBody s =
    { s with h := (wholeBlocks (s.valid ++ s.padding)).foldl compress s.h, pending := pending, pcount := 0,
             lc := .final, blocks := s.blocks ++ wholeBlocks (s.valid ++ s.padding) } := by
  have hp := s.pcount.isLt
  by_cases h : s.pcount.val ≤ 55
  · obtain ⟨b, hb, hf⟩ := finalBody_one_block s h
    have hbytes : s.valid ++ s.padding = b.toList := by
      rw [hb, State.padding, show (119 - s.pcount.val) % 64 = 55 - s.pcount.val by omega]
      simp
    exact ⟨b, by rw [hf, hbytes, wholeBlocks_block]; rfl⟩
  · obtain ⟨b, c, hb, hc, hf⟩ := finalBody_two_blocks s (by omega)
    have hbytes : s.valid ++ s.padding = b.toList ++ c.toList := by
      rw [hb, hc, State.padding, show (119 - s.pcount.val) % 64 = (63 - s.pcount.val) + 56 by omega,
        List.replicate_add]
      simp
    exact ⟨c, by rw [hf, hbytes, wholeBlocks_block_append, wholeBlocks_block]; rfl⟩

@[simp] theorem finalBody_lc (s : State) : (finalBody s).lc = .final := rfl

@[simp] theorem finalBody_err (s : State) : (finalBody s).err = s.err := by
  obtain ⟨_, h⟩ := finalBody_eq s
  rw [h]

theorem finalBody_h (s : State) :
    (finalBody s).h = (wholeBlocks (s.valid ++ s.padding)).foldl compress s.h := by
  obtain ⟨_, h⟩ := finalBody_eq s
  rw [h]

@[simp] theorem finalBody_pcount (s : State) : (finalBody s).pcount = 0 := by
  obtain ⟨_, h⟩ := finalBody_eq s
  rw [h]

@[simp] theorem finalBody_total (s : State) : (finalBody s).total = s.total := by
  obtain ⟨_, h⟩ := finalBody_eq s
  rw [h]

@[simp] theorem finalBody_queue (s : State) : (finalBody s).queue = s.queue := by
  obtain ⟨_, h⟩ := finalBody_eq s
  rw [h]

@[simp] theorem finalBody_replies (s : State) : (finalBody s).replies = s.replies := by
  obtain ⟨_, h⟩ := finalBody_eq s
  rw [h]

theorem finalBody_blocks (s : State) :
    (finalBody s).blocks = s.blocks ++ wholeBlocks (s.valid ++ s.padding) := by
  obtain ⟨_, h⟩ := finalBody_eq s
  rw [h]

/-! ## What every body leaves unchanged -/

@[simp] theorem bodyOf_err (i : Instr) (s : State) : (bodyOf i s).err = s.err := by
  cases i with
  | update n data => exact s.update_err _
  | final => exact finalBody_err s
  | nop | init | destroy => rfl

@[simp] theorem bodyOf_queue (i : Instr) (s : State) : (bodyOf i s).queue = s.queue := by
  cases i with
  | update n data => exact s.update_queue _
  | final => exact finalBody_queue s
  | nop | init | destroy => rfl

@[simp] theorem bodyOf_replies (i : Instr) (s : State) : (bodyOf i s).replies = s.replies := by
  cases i with
  | update n data => exact s.update_replies _
  | final => exact finalBody_replies s
  | nop | init | destroy => rfl

/-! ## The invariant between commands (10_state.md R35) -/

/-- A fresh context has absorbed nothing. -/
theorem absorbed_initBody (s : State) : (initBody s).Absorbed [] :=
  ⟨rfl, rfl, State.valid_of_pcount_zero rfl, [], rfl, rfl⟩

/-- UPDATE absorbs its bytes after those absorbed before (42_update.md R168). -/
theorem absorbed_update {s : State} {m : List Byte} (hs : s.Absorbed m) (data : List Byte) :
    (s.update data).Absorbed (m ++ data) := by
  obtain ⟨htotal, hpcount, hvalid, hhash⟩ := hs
  have hdrop : s.valid ++ data = (m ++ data).drop (64 * (m.length / 64)) := by
    rw [hvalid, List.drop_append_of_le_length (by omega)]
  have htake : m.take (64 * (m.length / 64)) = (m ++ data).take (64 * (m.length / 64)) := by
    rw [List.take_append_of_le_length (by omega)]
  have hcut : 64 * ((m ++ data).length / 64) =
      64 * (m.length / 64) + 64 * ((s.valid ++ data).length / 64) := by
    simp only [List.length_append, State.valid_length]
    omega
  refine ⟨?_, ?_, ?_, ?_⟩
  · rw [State.update_total, htotal, List.length_append, BitVec.ofNat_add]
  · rw [State.update_pcount, hpcount, List.length_append]
    omega
  · rw [State.update_valid, hcut, ← List.drop_drop, ← hdrop]
  · rw [State.update_h, hcut, List.take_add, ← hdrop, ← htake]
    exact hhash.append_wholeBlocks _

/-- FINAL after the bytes `m` leaves their digest (43_finalize.md R183, R186). -/
theorem State.Absorbed.isDigest_finalBody {s : State} {m : List Byte} (hs : s.Absorbed m) :
    IsDigest (finalBody s).h m := by
  obtain ⟨htotal, hpcount, hvalid, hhash⟩ := hs
  have hbits : s.bitCount = BitVec.ofNat 64 (8 * m.length) := by
    rw [State.bitCount, htotal, Nat.mul_comm, BitVec.ofNat_mul]
    rfl
  have hpadded : padded m = m.take (64 * (m.length / 64)) ++ (s.valid ++ s.padding) := by
    rw [hvalid, ← List.append_assoc, List.take_append_drop, State.padding, hpcount, hbits, padded]
    simp only [List.append_assoc]
  have hwhole := hhash.append_wholeBlocks (s.valid ++ s.padding)
  have hfills := s.padding_fills
  rw [List.take_of_length_le (l := s.valid ++ s.padding) (by omega), ← hpadded] at hwhole
  rwa [IsDigest, finalBody_h]

/-- An ACTIVE state that has absorbed a message meets the invariant. -/
theorem State.Absorbed.inv {s : State} {m : List Byte} (hlc : s.lc = .active) (hs : s.Absorbed m) : s.Inv := by
  have hcount : s.pcount.val = s.total.toNat % 64 := by
    obtain ⟨htotal, hpcount, -⟩ := hs
    rw [hpcount, htotal, BitVec.toNat_ofNat]
    omega
  exact ⟨by simp [hlc], fun _ => ⟨hcount, m, hs⟩, by simp [hlc]⟩

/-- An IDLE state that is all zero meets the invariant. -/
theorem State.inv_of_zero {s : State} (hlc : s.lc = .idle) (hh : s.h = Vector.replicate 8 0)
    (hp : s.pending = zeroBlock) (hc : s.pcount = 0) (ht : s.total = 0) : s.Inv :=
  ⟨fun _ => ⟨hh, hp, hc, ht⟩, by simp [hlc], by simp [hlc]⟩

theorem inv_bodyOf {s : State} (hs : s.Inv) {i : Instr} (hok : lifecycleResult i s.lc = .ok) :
    (bodyOf i s).Inv := by
  have ⟨_, hactive, _⟩ := hs
  cases i with
  | nop => exact hs
  | init => exact (absorbed_initBody s).inv rfl
  | update n data =>
    have hlc : s.lc = .active := by simpa using hok
    obtain ⟨-, m, hm⟩ := hactive hlc
    exact (absorbed_update hm _).inv ((s.update_lc _).trans hlc)
  | final =>
    have hlc : s.lc = .active := by simpa using hok
    obtain ⟨-, m, hm⟩ := hactive hlc
    have ⟨htotal, _⟩ := hm
    exact ⟨nofun, nofun, fun _ => ⟨finalBody_pcount s, m, (finalBody_total s).trans htotal, hm.isDigest_finalBody⟩⟩
  | destroy => exact State.inv_of_zero rfl rfl rfl rfl rfl

theorem inv_step {s t : State} (hs : s.Inv) (h : step s = .next t) : t.Inv := by
  obtain rfl | ⟨rest, ⟨i, hok, rfl⟩ | ⟨e, rfl⟩ | ⟨r, rfl⟩ | rfl⟩ := step_outcomes h
  · exact hs
  · have hq : ({ s with queue := rest } : State).Inv := hs
    exact inv_bodyOf hq hok
  · exact hs
  · exact hs
  · exact State.inv_of_zero rfl rfl rfl rfl rfl

/-- Settles O48: the message absorbed grows by each UPDATE's bytes, and FINAL compresses its padding. -/
theorem everyStepKeepsTheInvariant : Obligations.EveryStepKeepsTheInvariant := by
  refine ⟨fun s t hs h => inv_step hs h, fun q k t h => ?_⟩
  have hreset : ({ State.reset with queue := q } : State).Inv := State.inv_of_zero rfl rfl rfl rfl rfl
  exact stepMany_keeps (fun s t hs hst => inv_step hs hst) k _ t hreset h

/-! ## Stale bytes (10_state.md R36) -/

theorem State.ObsEq.status_eq {s s' : State} (h : s.ObsEq s') : s.status = s'.status := by
  obtain ⟨hlc, herr, -, -, hpcount, -⟩ := h
  rw [State.status, hlc, herr, hpcount, State.status]

theorem State.ObsEq.readWord_eq {s s' : State} (h : s.ObsEq s') (r : BitVec 4) : s.readWord r = s'.readWord r := by
  have ⟨_, _, hh, _, _, htotal⟩ := h
  simp only [State.readWord, h.status_eq, hh, htotal]

theorem obsEq_respond {s s' : State} (h : s.ObsEq s') (e : ErrCode) : (s.respond e).ObsEq (s'.respond e) := by
  obtain ⟨hlc, -, hh, hvalid, hpcount, htotal⟩ := h
  exact ⟨hlc, rfl, hh, hvalid, hpcount, htotal⟩

theorem obsEq_update {s s' : State} (h : s.ObsEq s') (data : List Byte) :
    (s.update data).ObsEq (s'.update data) := by
  obtain ⟨hlc, herr, hh, hvalid, hpcount, htotal⟩ := h
  refine ⟨by simpa, by simpa, ?_, ?_, Fin.ext ?_, by simpa⟩
  · rw [State.update_h, State.update_h, hh, hvalid]
  · rw [State.update_valid, State.update_valid, hvalid]
  · rw [State.update_pcount, State.update_pcount, hpcount]

theorem obsEq_finalBody {s s' : State} (h : s.ObsEq s') : (finalBody s).ObsEq (finalBody s') := by
  obtain ⟨-, herr, hh, hvalid, hpcount, htotal⟩ := h
  have hpadding : s.padding = s'.padding := by
    rw [State.padding, State.padding, State.bitCount, State.bitCount, hpcount, htotal]
  refine ⟨rfl, by simpa, ?_, ?_, by simp, by simpa⟩
  · rw [finalBody_h, finalBody_h, hh, hvalid, hpadding]
  · rw [State.valid_of_pcount_zero (finalBody_pcount s), State.valid_of_pcount_zero (finalBody_pcount s')]

theorem obsEq_bodyOf {s s' : State} (h : s.ObsEq s') (i : Instr) : (bodyOf i s).ObsEq (bodyOf i s') := by
  have ⟨_, herr, _⟩ := h
  cases i with
  | nop => exact h
  | init => exact ⟨rfl, herr, rfl, rfl, rfl, rfl⟩
  | update n data => exact obsEq_update h _
  | final => exact obsEq_finalBody h
  | destroy => exact ⟨rfl, herr, rfl, rfl, rfl, rfl⟩

/-- Two outcomes, of the states `s` and `s'`, that no host can tell apart: both go on, with the same words returned, the
same transactions waiting, and the states equal up to stale bytes. -/
def SameToHost (s s' : State) (o o' : Host.Outcome State Fault Refusal) : Prop :=
  ∃ (t t' : State) (ws : List Reply), o = .next t ∧ o' = .next t' ∧ t.ObsEq t' ∧ t.queue = t'.queue ∧
    t.replies = s.replies ++ ws ∧ t'.replies = s'.replies ++ ws

/-- Two states equal up to stale bytes, with the same transactions waiting, respond alike. -/
theorem sameToHost_respond {s s' u u' : State} (h : u.ObsEq u') (hq : u.queue = u'.queue)
    (hr : u.replies = s.replies) (hr' : u'.replies = s'.replies) (e : ErrCode) :
    SameToHost s s' (.next (u.respond e)) (.next (u'.respond e)) :=
  ⟨_, _, [.status (u.respond e).status], rfl, rfl, obsEq_respond h e, hq, by simp [hr],
    by simp [hr', (obsEq_respond h e).status_eq]⟩

theorem sameToHost_serveCommand {s s' : State} (h : s.ObsEq s') (hq : s.queue = s'.queue) (cmd data : Word) :
    SameToHost s s' (serveCommand cmd data s) (serveCommand cmd data s') := by
  have ⟨hlc, _⟩ := h
  cases hd : decode cmd data with
  | error e =>
    rw [serveCommand_of_illegal s hd, serveCommand_of_illegal s' hd]
    exact sameToHost_respond h hq rfl rfl _
  | ok i =>
    rw [serveCommand_of_decode s hd, serveCommand_of_decode s' hd, exec_eq, exec_eq, ← hlc]
    split
    · exact sameToHost_respond (obsEq_bodyOf h i) (by simpa) (by simp) (by simp) _
    · exact sameToHost_respond h hq rfl rfl _

theorem sameToHost_serve {s s' : State} (h : s.ObsEq s') (hq : s.queue = s'.queue) (r : Request) :
    SameToHost s s' (serve r s) (serve r s') := by
  cases r with
  | command cmd data => exact sameToHost_serveCommand h hq cmd data
  | read r => exact ⟨_, _, [.rdata (s.readWord r)], rfl, rfl, h, hq, rfl, by simp [h.readWord_eq r]⟩
  | reset | abandoned =>
    exact ⟨_, _, [], rfl, rfl, ⟨rfl, rfl, rfl, rfl, rfl, rfl⟩, hq, by simp, by simp⟩

theorem sameToHost_step {s s' : State} (h : s.ObsEq s') (hq : s.queue = s'.queue) :
    SameToHost s s' (step s) (step s') := by
  unfold step serveNext
  rw [← hq]
  cases s.queue with
  | nil => exact ⟨s, s', [], rfl, rfl, h, hq, by simp, by simp⟩
  | cons r rest =>
    have hrest : ({ s with queue := rest } : State).ObsEq { s' with queue := rest } := h
    exact sameToHost_serve hrest rfl r

theorem sameToHost_stepMany (k : Nat) : ∀ {s s' : State}, s.ObsEq s' → s.queue = s'.queue →
    SameToHost s s' (stepMany k s) (stepMany k s') := by
  induction k with
  | zero => intro s s' h hq; exact ⟨s, s', [], rfl, rfl, h, hq, by simp, by simp⟩
  | succ k ih =>
    intro s s' h hq
    obtain ⟨t, t', ws, ht, ht', hobs, hqueue, hr, hr'⟩ := sameToHost_step h hq
    obtain ⟨u, u', vs, hu, hu', huobs, huqueue, hur, hur'⟩ := ih hobs hqueue
    refine ⟨u, u', ws ++ vs, ?_, ?_, huobs, huqueue, ?_, ?_⟩
    · simp only [stepMany, ht, hu]
    · simp only [stepMany, ht', hu']
    · rw [hur, hr, List.append_assoc]
    · rw [hur', hr', List.append_assoc]

/-- Settles O49: a simulation; UPDATE and FINAL read `pending` only through its valid bytes. -/
theorem staleBytesOfPendingCannotBeObserved : Obligations.StaleBytesOfPendingCannotBeObserved :=
  fun k _ _ h hq => sameToHost_stepMany k h hq

/-! ## STATUS (10_state.md R27) -/

theorem ErrCode.code_le (e : ErrCode) : e.code ≤ 3 := by cases e <;> decide

theorem Lc.code_le (l : Lc) : l.code ≤ 2 := by cases l <;> decide

/-- Every command ends with one response, the STATUS of the state after it. -/
theorem serveCommand_response (cmd data : Word) (s : State) :
    ∃ t, serveCommand cmd data s = .next t ∧ t.replies = s.replies ++ [.status t.status] := by
  obtain ⟨i, -, -, h⟩ | ⟨e, -, h⟩ := serveCommand_ends cmd data s
  · exact ⟨_, h, by simp⟩
  · exact ⟨_, h, by simp⟩

/-- Settles O3: each field is a digit of the number that STATUS is. -/
theorem statusWordHasTheStatedFields : Obligations.StatusWordHasTheStatedFields := by
  refine ⟨fun s => ?_, rfl, fun s cmd data => serveCommand_response cmd data s⟩
  have hn := s.status_toNat
  have hp := s.pcount.isLt
  have he := s.err.code_le
  have hl := s.lc.code_le
  have field : ∀ start len, (s.status.extractLsb' start len).toNat =
      (s.pcount.val * 256 + s.err.code * 16 + s.lc.code) / 2 ^ start % 2 ^ len := by
    intro start len
    rw [BitVec.extractLsb'_toNat, Nat.shiftRight_eq_div_pow, hn]
  refine ⟨BitVec.eq_of_toNat_eq ?_, ?_, ?_, BitVec.eq_of_toNat_eq ?_, ?_, hn, he, hl, rfl⟩
  · rw [field]
    show _ = 0
    omega
  · rw [field]
    omega
  · rw [field]
    omega
  · rw [field]
    show _ = 0
    omega
  · rw [field]
    omega

/-! ## `err` (10_state.md R26) -/

/-- No body reads `err`. -/
theorem bodyOf_withErr (i : Instr) (s : State) (e : ErrCode) :
    bodyOf i { s with err := e } = { bodyOf i s with err := e } := by
  cases i with
  | nop | init | destroy => rfl
  | update n data =>
    simp only [bodyOf, State.update, State.absorbFromEmpty, State.countBytes, directPath_eq]
    split_ifs <;> rfl
  | final =>
    simp only [bodyOf, finalBody, State.finalize, State.appendMark]
    split_ifs <;> rfl

/-- The response writes over `err`. -/
theorem serveCommand_withErr (cmd data : Word) (s : State) (e : ErrCode) :
    serveCommand cmd data { s with err := e } = serveCommand cmd data s := by
  cases hd : decode cmd data with
  | error _ =>
    rw [serveCommand_of_illegal _ hd, serveCommand_of_illegal _ hd]
    rfl
  | ok i =>
    rw [serveCommand_of_decode _ hd, serveCommand_of_decode _ hd, exec_eq, exec_eq, bodyOf_withErr]
    rfl

/-- Settles O19: no command reads `err`, and the response of every one writes it. -/
theorem errIsTheResultOfTheLastCommand : Obligations.ErrIsTheResultOfTheLastCommand := by
  refine ⟨serveCommand_withErr, rfl, rfl, rfl, rfl, fun e => ?_, fun cmd data s i hd hok => ?_⟩
  · have := e.code_le
    omega
  · exact ⟨_, (serveCommand_of_decode s hd).trans (exec_of_ok hok), rfl⟩

/-! ## `lc` (10_state.md R25) -/

/-- The transition a command takes where the lifecycle table says OK. -/
theorem bodyOf_transition {i : Instr} {s : State} (hok : lifecycleResult i s.lc = .ok) :
    (i = .nop ∧ (bodyOf i s).lc = s.lc) ∨ (i = .init ∧ s.lc = .idle ∧ (bodyOf i s).lc = .active) ∨
    ((∃ n d, i = .update n d) ∧ s.lc = .active ∧ (bodyOf i s).lc = .active) ∨
    (i = .final ∧ s.lc = .active ∧ (bodyOf i s).lc = .final) ∨
    (i = .destroy ∧ (s.lc = .active ∨ s.lc = .final) ∧ (bodyOf i s).lc = .idle) := by
  cases i with
  | nop => exact .inl ⟨rfl, rfl⟩
  | init => exact .inr (.inl ⟨rfl, by simpa using hok, rfl⟩)
  | update n data =>
    have hlc : s.lc = .active := by simpa using hok
    exact .inr (.inr (.inl ⟨⟨n, data, rfl⟩, hlc, (s.update_lc _).trans hlc⟩))
  | final => exact .inr (.inr (.inr (.inl ⟨rfl, by simpa using hok, rfl⟩)))
  | destroy =>
    have hlc : s.lc = .active ∨ s.lc = .final := by cases h : s.lc <;> simp_all
    exact .inr (.inr (.inr (.inr ⟨rfl, hlc, rfl⟩)))

/-- A listed transition's command meets its precondition. -/
theorem lifecycleResult_of_listed {i : Instr} {l : Lc}
    (h : i = .nop ∨ (i = .init ∧ l = .idle) ∨ ((∃ n d, i = .update n d) ∧ l = .active) ∨ (i = .final ∧ l = .active) ∨
      (i = .destroy ∧ l ≠ .idle)) : lifecycleResult i l = .ok := by
  obtain rfl | ⟨rfl, hl⟩ | ⟨⟨n, d, rfl⟩, hl⟩ | ⟨rfl, hl⟩ | ⟨rfl, hl⟩ := h
  · rfl
  all_goals simp [hl]

/-- Settles O20: a command's body runs only where the lifecycle table says OK. -/
theorem lifecycleTransitionsAreOnlyTheListed : Obligations.LifecycleTransitionsAreOnlyTheListed := by
  refine ⟨⟨rfl, rfl, rfl, fun l => ?_⟩, fun cmd data s t h => ?_, fun s i hw hl => ?_⟩
  · have := l.code_le
    omega
  · obtain ⟨i, hd, hok, hc⟩ | ⟨e, he, hc⟩ := serveCommand_ends cmd data s <;> rw [hc] at h <;> cases h
    · exact ⟨fun hne => absurd rfl hne, fun _ => ⟨i, hd, bodyOf_transition hok⟩⟩
    · exact ⟨fun _ => rfl, fun heq => absurd heq he⟩
  · have hok := lifecycleResult_of_listed hl
    exact ⟨_, (serveCommand_of_decode s (decode_encode hw)).trans (exec_of_ok hok), rfl⟩

/-! ## `total` (10_state.md R24) -/

theorem State.update_total_toNat (s : State) (data : List Byte) :
    (s.update data).total.toNat = (s.total.toNat + data.length) % 2 ^ 64 := by
  simp

/-- FINAL keeps `total`, whether it succeeds or fails. -/
theorem exec_final_total (s : State) : ∃ t, exec .final s = .next t ∧ t.total = s.total := by
  refine ⟨_, exec_eq .final s, ?_⟩
  split
  · exact finalBody_total s
  · rfl

/-- Settles O39: the count of `update`, the zeroes of INIT, DESTROY and reset, and the two halves read. -/
theorem totalCountsBytesModuloTwoToTheSixtyFour : Obligations.TotalCountsBytesModuloTwoToTheSixtyFour := by
  refine ⟨State.update_total_toNat, fun s n data hlc hn => ?_, fun s hlc => ?_, fun s hlc => ?_, fun s => ⟨_, rfl, rfl⟩,
    exec_final_total, fun s => ⟨?_, ?_⟩⟩
  · have hok : lifecycleResult (.update n data) s.lc = .ok := by simp [hlc]
    refine ⟨_, exec_of_ok hok, (s.update_total_toNat _).trans ?_⟩
    rw [dataBytes_length data hn]
  · have hok : lifecycleResult .init s.lc = .ok := by simp [hlc]
    exact ⟨_, exec_of_ok hok, rfl⟩
  · have hok : lifecycleResult .destroy s.lc = .ok := by simp [hlc]
    exact ⟨_, exec_of_ok hok, rfl⟩
  · show (s.total.extractLsb' 0 32).toNat = _
    simp
  · show (s.total.extractLsb' 32 32).toNat = _
    have := s.total.isLt
    rw [BitVec.extractLsb'_toNat, Nat.shiftRight_eq_div_pow]
    omega

/-! ## `h` (10_state.md R21) -/

/-- The three ways `h` and the trace of blocks go from `s` to `t`: compressions, which only a live computation makes; INIT;
or a return to IDLE. -/
def HashStep (s t : State) : Prop :=
  (∃ bs : List Block, t.blocks = s.blocks ++ bs ∧ t.h = bs.foldl compress s.h ∧
    (bs ≠ [] → s.lc = .active ∧ t.lc ≠ .idle)) ∨
  (t.blocks = s.blocks ∧ s.lc = .idle ∧ t.lc = .active ∧ t.h = iv) ∨
  (t.blocks = s.blocks ∧ t.lc = .idle ∧ t.h = Vector.replicate 8 0)

/-- Nothing compressed and `h` kept. -/
theorem HashStep.of_same {s t : State} (hb : t.blocks = s.blocks) (hh : t.h = s.h) : HashStep s t :=
  .inl ⟨[], by simp [hb], hh, nofun⟩

theorem hashStep_bodyOf {s : State} {i : Instr} (hok : lifecycleResult i s.lc = .ok) : HashStep s (bodyOf i s) := by
  cases i with
  | nop => exact .of_same rfl rfl
  | init =>
    have hlc : s.lc = .idle := by simpa using hok
    exact .inr (.inl ⟨rfl, hlc, rfl, rfl⟩)
  | update n data =>
    have hlc : s.lc = .active := by simpa using hok
    exact .inl ⟨_, s.update_blocks _, s.update_h _, fun _ => ⟨hlc, by simp [bodyOf, hlc]⟩⟩
  | final =>
    have hlc : s.lc = .active := by simpa using hok
    exact .inl ⟨_, finalBody_blocks s, finalBody_h s, fun _ => ⟨hlc, nofun⟩⟩
  | destroy => exact .inr (.inr ⟨rfl, rfl, rfl⟩)

theorem hashStep_step {s t : State} (h : step s = .next t) : HashStep s t := by
  obtain rfl | ⟨rest, ⟨i, hok, rfl⟩ | ⟨e, rfl⟩ | ⟨r, rfl⟩ | rfl⟩ := step_outcomes h
  · exact .of_same rfl rfl
  · have hq : HashStep { s with queue := rest } (bodyOf i { s with queue := rest }) := hashStep_bodyOf hok
    exact hq
  · exact .of_same rfl rfl
  · exact .of_same rfl rfl
  · exact .inr (.inr ⟨rfl, rfl, rfl⟩)

/-- Settles O40: the blocks a step adds to the trace are the compressions `h` went through. -/
theorem hashWordsAreWrittenOnlyAsListed : Obligations.HashWordsAreWrittenOnlyAsListed := by
  refine ⟨fun s t h => ?_, State.readWord_hash⟩
  obtain ⟨bs, hb, hh, hlive⟩ | ⟨hb, hidle, hactive, hh⟩ | ⟨hb, hidle, hh⟩ := hashStep_step h
  · refine ⟨bs, hb, fun _ _ => hh, fun hne => .inl ?_⟩
    have hbs : bs ≠ [] := by
      rintro rfl
      exact hne hh
    obtain ⟨hs, ht⟩ := hlive hbs
    exact ⟨hs, ht, hbs⟩
  · exact ⟨[], by simp [hb], by simp [hidle], fun _ => .inr (.inl ⟨hidle, hactive, hh⟩)⟩
  · exact ⟨[], by simp [hb], fun _ hne => absurd hidle hne, fun _ => .inr (.inr ⟨hidle, by simp [hh]⟩)⟩

end Sys2Proof.Machine

/-! # 20_memory.md: the host's transactions, the read space and the byte orders -/

namespace Sys2Proof.Machine

/-! ## Issue order (20_memory.md R60) -/

/-- A step with a transaction waiting serves it, with the later ones left waiting. -/
theorem step_of_queue_cons {s : State} {r : Request} {rest : List Request} (h : s.queue = r :: rest) :
    step s = serve r { s with queue := rest } := by
  rw [step, serveNext, h]

/-- As many steps as there are transactions at the head of the host's list serve them in order: each hands on the rest
of the list as it found it. -/
theorem stepMany_of_queue_append (rest : List Request) (rs : List Request) :
    ∀ s : State, s.queue = rs ++ rest → stepMany rs.length s = serveAll rs { s with queue := rest } := by
  induction rs with
  | nil =>
    rintro s rfl
    rfl
  | cons r rs ih =>
    intro s hq
    obtain ⟨t, ws, -, hserve⟩ := serve_host r s
    have hstep : step s = .next { t with queue := rs ++ rest, replies := s.replies ++ ws } :=
      (step_of_queue_cons hq).trans (hserve (rs ++ rest) s.replies)
    have hfirst : serve r { s with queue := rest } = .next { t with queue := rest, replies := s.replies ++ ws } :=
      hserve rest s.replies
    simp only [List.length_cons, stepMany, hstep, serveAll, hfirst]
    exact ih _ rfl

/-- Settles O16, by induction on the transactions served. -/
theorem transactionsTakeEffectInIssueOrder : Obligations.TransactionsTakeEffectInIssueOrder :=
  fun s rs rest h => stepMany_of_queue_append rest rs s h

/-! ## Reads (20_memory.md R55, R56) -/

/-- A read leaves the word at every index as it was. -/
@[simp] theorem State.readWord_serveRead (s : State) (r x : BitVec 4) : (s.serveRead r).readWord x = s.readWord x := rfl

/-- Reads served one after another only add the words of the first state to the replies. -/
theorem serveAll_reads (rs : List (BitVec 4)) : ∀ s : State, serveAll (rs.map .read) s =
    .next { s with replies := s.replies ++ rs.map fun r => .rdata (s.readWord r) } := by
  induction rs with
  | nil =>
    intro s
    simp [serveAll]
  | cons r rs ih =>
    intro s
    have hread : serve (.read r) s = .next (s.serveRead r) := rfl
    simp [serveAll, hread, ih]

/-- Settles O5: reads are served in issue order, and no idle step and no read changes a word of the read space. -/
theorem readsHaveNoSideEffect : Obligations.ReadsHaveNoSideEffect := by
  refine ⟨fun s rs rest hq => ?_, fun s t x hstep hne => ?_⟩
  · have hserved := stepMany_of_queue_append rest _ s hq
    rw [List.length_map, serveAll_reads] at hserved
    exact hserved
  · obtain ⟨-, hs⟩ | ⟨rest, ⟨cmd, data, hq, -⟩ | ⟨r, -, hs⟩ | ⟨hq, -⟩⟩ := step_cases s
    · rw [hs] at hstep
      cases hstep
      exact absurd rfl hne
    · exact ⟨rest, .inl ⟨cmd, data, hq⟩⟩
    · rw [hs] at hstep
      cases hstep
      exact absurd rfl hne
    · exact ⟨rest, .inr hq⟩

/-- Read indices 3 to 7 are unassigned and read 0. -/
theorem State.readWord_unassigned (s : State) {r : BitVec 4} (hlo : 3 ≤ r.toNat) (hhi : r.toNat ≤ 7) :
    s.readWord r = 0 := by
  obtain h | h | h | h | h : r.toNat = 3 ∨ r.toNat = 4 ∨ r.toNat = 5 ∨ r.toNat = 6 ∨ r.toNat = 7 := by omega
  all_goals simp only [State.readWord, h]

/-- Settles O4: what H0..H7 hold is what the invariant says of `h`. -/
theorem readSpaceMapsTheStatedWords : Obligations.ReadSpaceMapsTheStatedWords := by
  refine ⟨fun s => ⟨rfl, rfl, rfl, fun _ => s.readWord_unassigned, s.readWord_hash⟩, fun s hs => ?_⟩
  obtain ⟨hidle, hactive, hfinal⟩ := hs
  refine ⟨s.h, s.readWord_hash, fun hlc j => ?_, fun hlc => ?_, fun hlc => ?_⟩
  · obtain ⟨hzero, -⟩ := hidle hlc
    simp [hzero]
  · obtain ⟨-, m, hm⟩ := hactive hlc
    have ⟨_, _, _, hhash⟩ := hm
    exact ⟨m, hm, hhash⟩
  · obtain ⟨-, hdigest⟩ := hfinal hlc
    exact hdigest

/-! ## Byte orders (20_memory.md R53) -/

/-- The byte of a value that starts at bit `k`, as a number: a base-256 digit where 8 divides `k`. -/
theorem toNat_byteAt {w : Nat} (v : BitVec w) (k : Nat) : (v.extractLsb' k 8).toNat = v.toNat / 2 ^ k % 2 ^ 8 := by
  rw [BitVec.extractLsb'_toNat, Nat.shiftRight_eq_div_pow]

/-- The bytes of a 64-bit value, the first the most significant, are its base-256 digits. -/
theorem be64bytes_value (v : BitVec 64) : (be64bytes v).foldl (fun n b => n * 256 + b.toNat) 0 = v.toNat := by
  have hv := v.isLt
  simp only [be64bytes, List.foldl_cons, List.foldl_nil, toNat_byteAt]
  omega

/-- The bytes of a word, the first the most significant, are its base-256 digits. -/
theorem be32bytes_value (w : Word) : (be32bytes w).foldl (fun n b => n * 256 + b.toNat) 0 = w.toNat := by
  have hw := w.isLt
  simp only [be32bytes, List.foldl_cons, List.foldl_nil, toNat_byteAt]
  omega

/-- The eight hash words in order. -/
theorem hashWords_toList (h : HashWords) : h.toList = [h[0], h[1], h[2], h[3], h[4], h[5], h[6], h[7]] := by
  refine List.ext_getElem (by simp) fun i hi _ => ?_
  have hi8 : i < 8 := by simpa using hi
  interval_cases i <;> simp

/-- Settles O32: bytes are base-256 digits, and the digest's come word by word. -/
theorem lengthFieldAndDigestBytesAreBigEndian : Obligations.LengthFieldAndDigestBytesAreBigEndian := by
  refine ⟨fun v => ⟨rfl, be64bytes_value v⟩, fun w => ⟨rfl, be32bytes_value w⟩, fun h => ?_⟩
  rw [digestBytes, hashWords_toList]
  simp only [List.flatMap_cons, List.flatMap_nil, List.append_nil, List.append_assoc]

end Sys2Proof.Machine

/-! # 30_encoding.md: command words, the decoder and UPDATE's operand -/

namespace Sys2Proof.Machine

/-! ## The fields of a command word as numbers (30_encoding.md R71) -/

theorem opcField_toNat (cmd : Word) : (opcField cmd).toNat = cmd.toNat / 2 ^ 24 := by
  have hcmd := cmd.isLt
  rw [opcField, toNat_byteAt]
  omega

theorem rsvField_toNat (cmd : Word) : (rsvField cmd).toNat = cmd.toNat / 2 ^ 3 % 2 ^ 21 := by
  rw [rsvField, BitVec.extractLsb'_toNat, Nat.shiftRight_eq_div_pow]

theorem nField_toNat (cmd : Word) : (nField cmd).toNat = cmd.toNat % 2 ^ 3 := by
  rw [nField, BitVec.extractLsb'_toNat, Nat.shiftRight_zero]

/-! ## Legality (30_encoding.md R73) -/

theorem legal_iff (cmd : Word) : legal cmd = true ↔
    cmd.toNat / 2 ^ 24 ≤ 0x04 ∧ cmd.toNat / 2 ^ 3 % 2 ^ 21 = 0 ∧
      (if cmd.toNat / 2 ^ 24 = 0x02 then cmd.toNat % 2 ^ 3 ≤ 4 else cmd.toNat % 2 ^ 3 = 0) := by
  have hzero {w : Nat} (x : BitVec w) : x = 0 ↔ x.toNat = 0 := BitVec.toNat_inj.symm
  simp only [legal, hzero, opcField_toNat, rsvField_toNat, nField_toNat, Bool.and_eq_true, and_assoc]
  split_ifs <;> simp only [decide_eq_true_eq]

/-- The nine legal command words (30_encoding.md R72, R73). -/
def legalWords : List Word :=
  [0x00000000#32, 0x01000000#32, 0x02000000#32, 0x02000001#32, 0x02000002#32, 0x02000003#32, 0x02000004#32,
    0x03000000#32, 0x04000000#32]

/-- A legal word is `opcode * 2^24 + N`, which leaves nine. -/
theorem legal_iff_mem_legalWords (cmd : Word) : legal cmd = true ↔ cmd ∈ legalWords := by
  simp only [legalWords, List.mem_cons, List.not_mem_nil, or_false]
  constructor
  · intro h
    obtain ⟨hopc, hrsv, hn⟩ := (legal_iff cmd).1 h
    simp only [← BitVec.toNat_inj, BitVec.reduceToNat]
    split_ifs at hn <;> omega
  · rintro (rfl | rfl | rfl | rfl | rfl | rfl | rfl | rfl | rfl) <;> decide

/-! ## The decoder (30_encoding.md R75) -/

theorem decodeBare_eq_ok_iff {n : BitVec 3} {i j : Instr} : decodeBare n i = .ok j ↔ n = 0 ∧ j = i := by
  unfold decodeBare
  split_ifs with h
  · simpa [h] using eq_comm
  · exact iff_of_false nofun fun hn => h hn.1

theorem decodeUpdate_eq_ok_iff {n : BitVec 3} {data : Word} {j : Instr} :
    decodeUpdate n data = .ok j ↔ n.toNat ≤ 4 ∧ j = .update n.toNat data := by
  unfold decodeUpdate
  split_ifs with h
  · simpa [h] using eq_comm
  · exact iff_of_false nofun fun hn => h hn.1

/-- What the decoder answers: for legal words alone, the command of the opcode. -/
theorem decode_eq_ok_iff {cmd data : Word} {i : Instr} : decode cmd data = .ok i ↔ legal cmd = true ∧
    ((cmd.toNat / 2 ^ 24 = 0x00 ∧ i = .nop) ∨ (cmd.toNat / 2 ^ 24 = 0x01 ∧ i = .init) ∨
      (cmd.toNat / 2 ^ 24 = 0x02 ∧ i = .update (cmd.toNat % 2 ^ 3) data) ∨
      (cmd.toNat / 2 ^ 24 = 0x03 ∧ i = .final) ∨ (cmd.toNat / 2 ^ 24 = 0x04 ∧ i = .destroy)) := by
  rw [← opcField_toNat, ← nField_toNat, decode, legal]
  by_cases hrsv : rsvField cmd = 0
  · rw [if_pos hrsv]
    split
    case h_6 h0 h1 h2 h3 h4 =>
      simp only [imp_false] at h0 h1 h2 h3 h4
      have hopc : ¬ (opcField cmd).toNat ≤ 4 := by omega
      simp [hopc]
    all_goals
      rename_i hopc
      simp [hopc, hrsv, decodeBare_eq_ok_iff, decodeUpdate_eq_ok_iff]
  · rw [if_neg hrsv, decide_eq_false hrsv]
    simp

/-- The decoder reads DATA for opcode 2 alone (30_encoding.md R74). -/
theorem decode_eq_of_opcode_ne_update {cmd : Word} (h : cmd.toNat / 2 ^ 24 ≠ 0x02) (d d' : Word) :
    decode cmd d = decode cmd d' := by
  rw [← opcField_toNat] at h
  unfold decode
  split
  · split
    case h_3 hopc => exact absurd hopc h
    all_goals rfl
  · rfl

theorem decode_of_not_legal {cmd : Word} (h : legal cmd = false) (data : Word) : ∃ e, decode cmd data = .error e := by
  cases hd : decode cmd data with
  | error e => exact ⟨e, rfl⟩
  | ok i =>
    obtain ⟨hlegal, -⟩ := decode_eq_ok_iff.1 hd
    simp [h] at hlegal

/-- Settles O6: opcode and count leave nine words, and what the decoder refuses fails ILLEGAL. -/
theorem exactlyNineCommandWordsAreLegal : Obligations.ExactlyNineCommandWordsAreLegal := by
  refine ⟨legal_iff, legal_iff_mem_legalWords, fun cmd data s h => ?_⟩
  obtain ⟨e, he⟩ := decode_of_not_legal h data
  exact ⟨s.fail .illegal, serveCommand_of_illegal s he, rfl⟩

/-- Settles O7, by the five opcodes a legal word can have. -/
theorem decodeFollowsTheOpcodeMap : Obligations.DecodeFollowsTheOpcodeMap := by
  refine fun cmd data => ⟨fun h => decode_of_not_legal h data, fun h => ?_⟩
  obtain ⟨hopc, -, -⟩ := (legal_iff cmd).1 h
  simp only [decode_eq_ok_iff, h, true_and]
  interval_cases cmd.toNat / 2 ^ 24 <;> simp

/-! ## UPDATE's operand (30_encoding.md R74, 20_memory.md R54) -/

/-- Byte `i` of a word, counted from the most significant. -/
theorem be32bytes_getD (w : Word) {i : Nat} (h : i < 4) :
    ((be32bytes w).getD i 0).toNat = w.toNat / 2 ^ (24 - 8 * i) % 2 ^ 8 := by
  rw [← toNat_byteAt]
  interval_cases i <;> rfl

theorem dataBytes_getD (data : Word) {n i : Nat} (hn : n ≤ 4) (hi : i < n) :
    ((dataBytes data n).getD i 0).toNat = data.toNat / 2 ^ (24 - 8 * i) % 2 ^ 8 := by
  rw [← be32bytes_getD data (by omega), dataBytes]
  simp [List.getD_eq_getElem?_getD, List.getElem?_take_of_lt hi]

/-- A word's four bytes form it again. -/
theorem be32_be32bytes (w : Word) : be32 (w.extractLsb' 24 8) (w.extractLsb' 16 8) (w.extractLsb' 8 8)
    (w.extractLsb' 0 8) = w := by
  rw [be32, BitVec.extractLsb'_append_extractLsb'_eq_extractLsb' (by rfl),
    BitVec.extractLsb'_append_extractLsb'_eq_extractLsb' (by rfl),
    BitVec.extractLsb'_append_extractLsb'_eq_extractLsb' (by rfl)]
  exact BitVec.extractLsb'_eq_self

/-- The first `n` bytes of a word are the base-256 digits of its quotient by `2 ^ (32 - 8 n)`. -/
theorem dataBytes_eq_of_div_eq {n : Nat} {d d' : Word} (hn : n ≤ 4)
    (h : d.toNat / 2 ^ (32 - 8 * n) = d'.toNat / 2 ^ (32 - 8 * n)) : dataBytes d n = dataBytes d' n := by
  refine List.ext_getElem (by simp only [dataBytes_length _ hn]) fun i hi hi' => BitVec.eq_of_toNat_eq ?_
  have hin : i < n := dataBytes_length d hn ▸ hi
  have hpow : 2 ^ (24 - 8 * i) = 2 ^ (32 - 8 * n) * 2 ^ (8 * (n - 1 - i)) := by
    rw [← pow_add]
    congr 1
    omega
  rw [← List.getD_eq_getElem _ 0 hi, ← List.getD_eq_getElem _ 0 hi', dataBytes_getD d hn hin, dataBytes_getD d' hn hin,
    hpow, ← Nat.div_div_eq_div_mul, ← Nat.div_div_eq_div_mul, h]

/-- DATA enters UPDATE only as the bytes carried. -/
theorem exec_update_congr {n : Nat} {d d' : Word} (h : dataBytes d n = dataBytes d' n) (s : State) :
    exec (.update n d) s = exec (.update n d') s := by
  show execUpdate n d s = execUpdate n d' s
  rw [execUpdate, execUpdate, h]

/-- Settles O11: bytes of DATA are base-256 digits, and DATA enters a command by its first N of them alone. -/
theorem operandIsTheFirstBytesOfData : Obligations.OperandIsTheFirstBytesOfData := by
  refine ⟨fun cmd data d n h => ?_, fun data => ⟨_, _, _, _, rfl, be32_be32bytes data⟩,
    fun data n i hn hi => ⟨dataBytes_length data hn, dataBytes_getD data hn hi⟩,
    fun n d d' s hn h => exec_update_congr (dataBytes_eq_of_div_eq hn h) s, fun cmd d d' s h => ?_⟩
  · obtain ⟨-, ⟨-, ⟨⟩⟩ | ⟨-, ⟨⟩⟩ | ⟨-, ⟨⟩⟩ | ⟨-, ⟨⟩⟩ | ⟨-, ⟨⟩⟩⟩ := decode_eq_ok_iff.1 h
    exact ⟨rfl, rfl⟩
  · rw [serveCommand, serveCommand, decode_eq_of_opcode_ne_update h d d']

end Sys2Proof.Machine

/-! # 40_lifecycle.md: NOP, INIT and DESTROY -/

namespace Sys2Proof.Machine

/-! ## The words of the commands (30_encoding.md R71, R72) -/

/-- A command word as a number: its three fields do not overlap. -/
theorem commandWord_toNat (opc : BitVec 8) (n : BitVec 3) : (commandWord opc n).toNat = opc.toNat * 2 ^ 24 + n.toNat := by
  have hopc := opcField_toNat (commandWord opc n)
  have hrsv := rsvField_toNat (commandWord opc n)
  have hn := nField_toNat (commandWord opc n)
  simp only [opcField_commandWord, rsvField_commandWord, nField_commandWord, BitVec.reduceToNat] at hopc hrsv hn
  omega

/-- Encoding undoes decoding, on the command word (30_encoding.md R75). -/
theorem encode_of_decode {cmd data : Word} {i : Instr} (h : decode cmd data = .ok i) : (encode i).1 = cmd := by
  obtain ⟨hlegal, hcase⟩ := decode_eq_ok_iff.1 h
  obtain ⟨-, hrsv, hn⟩ := (legal_iff cmd).1 hlegal
  apply BitVec.eq_of_toNat_eq
  obtain ⟨hopc, rfl⟩ | ⟨hopc, rfl⟩ | ⟨hopc, rfl⟩ | ⟨hopc, rfl⟩ | ⟨hopc, rfl⟩ := hcase
  all_goals
    simp only [encode, commandWord_toNat, BitVec.toNat_ofNat, BitVec.reduceToNat, Nat.reducePow, Nat.reduceMul]
    split_ifs at hn <;> omega

/-- A command that DATA has no part in is its one command word, with any DATA (30_encoding.md R74). -/
theorem decode_eq_ok_iff_eq_encode {i : Instr} (h : ∀ data, decode (encode i).1 data = .ok i) (cmd data : Word) :
    decode cmd data = .ok i ↔ cmd = (encode i).1 := by
  refine ⟨fun hd => (encode_of_decode hd).symm, ?_⟩
  rintro rfl
  exact h data

/-! ## The end of a command (40_lifecycle.md R100) -/

/-- STATUS after a success that left nothing pending is the lifecycle code alone. -/
theorem State.status_of_empty_of_ok {s : State} (hp : s.pcount = 0) (he : s.err = .ok) :
    s.status = BitVec.ofNat 32 s.lc.code := by
  simp [State.status, hp, he, ErrCode.code]

/-- Where the lifecycle table names an error, the command fails with it. -/
theorem exec_of_error {i : Instr} {s : State} {e : ErrCode} (h : lifecycleResult i s.lc = e) (he : e ≠ .ok) :
    exec i s = .next (s.fail e) := by
  subst h
  exact exec_of_fail he

theorem lifecycleResult_init_of_ne_idle {l : Lc} (h : l ≠ .idle) : lifecycleResult .init l = .alloc := by
  cases l with
  | idle => exact absurd rfl h
  | active | final => rfl

/-- INIT alone leaves IDLE (40_lifecycle.md R103). -/
theorem eq_init_of_exec_leaves_idle {s t : State} {i : Instr} (hidle : s.lc = .idle) (hexec : exec i s = .next t)
    (hleft : t.lc ≠ .idle) : i = .init := by
  by_cases hok : lifecycleResult i s.lc = .ok
  · rw [exec_of_ok hok] at hexec
    cases hexec
    obtain ⟨-, hlc⟩ | ⟨rfl, -⟩ | ⟨-, hlc, -⟩ | ⟨-, hlc, -⟩ | ⟨-, hlc, -⟩ := bodyOf_transition hok
    · exact absurd (hlc.trans hidle) hleft
    · rfl
    all_goals simp [hidle] at hlc
  · rw [exec_of_fail hok] at hexec
    cases hexec
    exact absurd hidle hleft

/-- Settles O22: INIT's body runs from IDLE alone, and no other command's body leaves it. -/
theorem initCreatesAFreshHashState : Obligations.InitCreatesAFreshHashState := by
  refine ⟨decode_eq_ok_iff_eq_encode fun _ => rfl, fun s hidle => ?_, fun s hne => ?_,
    fun s t i => eq_init_of_exec_leaves_idle⟩
  · have hok : lifecycleResult .init s.lc = .ok := (lifecycleResult_init_ok _).2 hidle
    exact ⟨_, exec_of_ok hok, State.status_of_empty_of_ok rfl rfl, rfl⟩
  · exact ⟨_, exec_of_error (lifecycleResult_init_of_ne_idle hne) nofun, rfl⟩

/-- Settles O21: NOP has no precondition, and its body is the identity. -/
theorem nopOnlyClearsErrAndReturnsStatus : Obligations.NopOnlyClearsErrAndReturnsStatus := by
  refine ⟨fun s => ⟨_, exec_of_ok (lifecycleResult_nop _), rfl, ?_⟩,
    decode_eq_ok_iff_eq_encode fun _ => rfl⟩
  rw [State.status_toNat]
  simp [bodyOf, ErrCode.code]

/-- Settles O23: DESTROY's body runs outside IDLE alone, and zeroes what a reset zeroes. -/
theorem destroyReleasesAndClearsTheState : Obligations.DestroyReleasesAndClearsTheState := by
  refine ⟨decode_eq_ok_iff_eq_encode fun _ => rfl, fun s hne => ?_, fun s hidle => ?_⟩
  · have hok : lifecycleResult .destroy s.lc = .ok := (lifecycleResult_destroy_ok _).2 hne
    exact ⟨_, exec_of_ok hok, State.status_of_empty_of_ok rfl rfl, rfl⟩
  · have husage : lifecycleResult .destroy s.lc = .usage := by
      rw [hidle]
      rfl
    exact ⟨_, exec_of_error husage nofun, rfl⟩

end Sys2Proof.Machine

/-! # The compression function (41_compression.md)

SUPPORT. Each bit function bit by bit, the schedule word by word, a round as sums of numbers, the loop round by round. -/

namespace Sys2Proof.Machine

/-! ## Bit functions -/

theorem rotr_getLsbD (x : Word) {n k : Nat} (hn : 0 < n) (hn32 : n < 32) (hk : k < 32) :
    (rotr x n).getLsbD k = x.getLsbD ((k + n) % 32) := by
  simp only [rotr, BitVec.getLsbD_or, BitVec.getLsbD_ushiftRight, BitVec.getLsbD_shiftLeft]
  obtain hin | hwrap := Nat.lt_or_ge (k + n) 32
  · rw [Nat.mod_eq_of_lt hin, Nat.add_comm n k]
    simp [show k < 32 - n by omega]
  · rw [show (k + n) % 32 = k - (32 - n) by omega, BitVec.getLsbD_of_ge x (n + k) (by omega)]
    simp [hk, show ¬ k < 32 - n by omega]

theorem shr_getLsbD (x : Word) (n k : Nat) :
    (shr x n).getLsbD k = (decide (k + n < 32) && x.getLsbD (k + n)) := by
  rw [shr, BitVec.getLsbD_ushiftRight, Nat.add_comm n k]
  obtain hin | hout := Nat.lt_or_ge (k + n) 32
  · simp [hin]
  · simp [BitVec.getLsbD_of_ge x (k + n) hout]

/-- Settles O24: bit `k` comes from the right part or from the part that wraps around. -/
theorem rotrRotatesRight : Obligations.RotrRotatesRight :=
  fun x _ _ => rotr_getLsbD x

/-- Settles O25: the bits the shift brings in lie above the word. -/
theorem shiftRightIsLogical : Obligations.ShiftRightIsLogical := by
  refine fun x n _ => ⟨?_, fun k hk => ?_⟩
  · rw [shr, BitVec.toNat_ushiftRight, Nat.shiftRight_eq_div_pow]
  · simp [shr_getLsbD, show ¬ k + n < 32 by omega]

/-- Settles O26, from the bits of a rotation and of a shift. -/
theorem sigmaFunctionsXorTheStatedBits : Obligations.SigmaFunctionsXorTheStatedBits := by
  intro x k hk
  have rotr_bit {n : Nat} (hn : 0 < n) (hn32 : n < 32) := rotr_getLsbD x hn hn32 hk
  simp only [bigSigma0, bigSigma1, smallSigma0, smallSigma1, BitVec.getLsbD_xor, rotr_bit, shr_getLsbD, Nat.reduceLT,
    and_self]

theorem ch_getLsbD (e f g : Word) {k : Nat} (hk : k < 32) :
    (ch e f g).getLsbD k = if e.getLsbD k then f.getLsbD k else g.getLsbD k := by
  simp only [ch, BitVec.getLsbD_xor, BitVec.getLsbD_and, BitVec.getLsbD_not, hk, decide_true, Bool.true_and]
  cases e.getLsbD k <;> simp

theorem maj_getLsbD (a b c : Word) (k : Nat) :
    (maj a b c).getLsbD k = Bool.atLeastTwo (a.getLsbD k) (b.getLsbD k) (c.getLsbD k) := by
  simp only [maj, BitVec.getLsbD_xor, BitVec.getLsbD_and]
  generalize a.getLsbD k = p, b.getLsbD k = q, c.getLsbD k = r
  decide +revert

/-- The majority of three bits, by counting. -/
theorem atLeastTwo_iff_two_le_count (p q r : Bool) :
    Bool.atLeastTwo p q r = true ↔ 2 ≤ p.toNat + q.toNat + r.toNat := by
  decide +revert

/-- Settles O27, bit by bit: a choice by the first word's bit, and the majority of three bits counted. -/
theorem chSelectsAndMajIsTheMajority : Obligations.ChSelectsAndMajIsTheMajority := by
  refine fun x y z k hk => ⟨ch_getLsbD x y z hk, ?_⟩
  rw [maj_getLsbD]
  exact atLeastTwo_iff_two_le_count _ _ _

/-! ## The message schedule -/

/-- A big-endian word is its four bytes as base-256 digits (00_scope.md R12). -/
theorem be32_toNat (b0 b1 b2 b3 : Byte) :
    (be32 b0 b1 b2 b3).toNat = b0.toNat * 2 ^ 24 + b1.toNat * 2 ^ 16 + b2.toNat * 2 ^ 8 + b3.toNat := by
  have append_toNat {m : Nat} (u : BitVec m) (v : Byte) : (u ++ v).toNat = u.toNat * 2 ^ 8 + v.toNat := by
    rw [BitVec.toNat_append, Nat.shiftLeft_eq, Nat.mul_comm, ← Nat.two_pow_add_eq_or_of_lt v.isLt]
  rw [be32, append_toNat, append_toNat, append_toNat]
  omega

theorem blockWord_toNat (b : Block) {t : Nat} (h : t < 16) : (blockWord b t).toNat =
    b[4 * t].toNat * 2 ^ 24 + b[4 * t + 1].toNat * 2 ^ 16 + b[4 * t + 2].toNat * 2 ^ 8 + b[4 * t + 3].toNat := by
  have byte {i : Nat} (hi : i < 64) : b.toList.getD i 0 = b[i] := by
    rw [List.getD_eq_getElem _ _ (by simpa using hi), Vector.getElem_toList]
  rw [blockWord, be32_toNat, byte, byte, byte, byte]

theorem schedWord_directWords (b : Block) {t : Nat} (h : t < 16) :
    schedWord (directWords b) t = blockWord b t := by
  rw [schedWord, List.getD_eq_getElem _ _ (by simpa [directWords] using h)]
  simp [directWords]

/-- The right side of R129's recurrence for `W[t]`. -/
def recurrenceWord (w : List Word) (t : Nat) : Word :=
  schedWord w (t - 16) + smallSigma0 (schedWord w (t - 15)) + schedWord w (t - 7) + smallSigma1 (schedWord w (t - 2))

theorem nextWord_eq_recurrenceWord (w : List Word) : nextWord w = recurrenceWord w w.length := rfl

/-- The recurrence reads earlier words only. -/
theorem recurrenceWord_congr {w w' : List Word} {t : Nat} (ht : 16 ≤ t)
    (h : ∀ i < t, schedWord w i = schedWord w' i) : recurrenceWord w t = recurrenceWord w' t := by
  simp only [recurrenceWord, h _ (show t - 16 < t by omega), h _ (show t - 15 < t by omega),
    h _ (show t - 7 < t by omega), h _ (show t - 2 < t by omega)]

theorem expandWords_length (k : Nat) (w : List Word) : (expandWords k w).length = w.length + k := by
  induction k generalizing w with
  | zero => rfl
  | succ k ih =>
    rw [expandWords, ih, List.length_append, List.length_singleton]
    omega

/-- Expansion keeps the words it starts from. -/
theorem schedWord_expandWords_of_lt (k : Nat) {w : List Word} {t : Nat} (ht : t < w.length) :
    schedWord (expandWords k w) t = schedWord w t := by
  induction k generalizing w with
  | zero => rfl
  | succ k ih =>
    rw [expandWords, ih (by rw [List.length_append]; omega), schedWord, List.getD_append _ _ _ _ ht, schedWord]

/-- Each word that expansion adds obeys the recurrence: when it is added it does, and later turns keep what it reads. -/
theorem schedWord_expandWords_of_le (k : Nat) {w : List Word} {t : Nat} (hw : 16 ≤ w.length) (hlo : w.length ≤ t)
    (hhi : t < w.length + k) : schedWord (expandWords k w) t = recurrenceWord (expandWords k w) t := by
  induction k generalizing w with
  | zero => omega
  | succ k ih =>
    have hlen : (w ++ [nextWord w]).length = w.length + 1 := by simp
    obtain rfl | hlt := Nat.eq_or_lt_of_le hlo
    · calc schedWord (expandWords (k + 1) w) w.length
          = schedWord (w ++ [nextWord w]) w.length := schedWord_expandWords_of_lt k (by omega)
        _ = nextWord w := by simp [schedWord]
        _ = recurrenceWord w w.length := nextWord_eq_recurrenceWord w
        _ = recurrenceWord (expandWords (k + 1) w) w.length :=
          recurrenceWord_congr hw fun i hi => (schedWord_expandWords_of_lt (k + 1) hi).symm
    · exact ih (by omega) (by omega) (by omega)

/-- Settles O28: the first 16 words are the block's, and the other 48 are those expansion adds. -/
theorem scheduleObeysItsRecurrence : Obligations.ScheduleObeysItsRecurrence := by
  intro b
  have hlen : (directWords b).length = 16 := by simp [directWords]
  refine ⟨?_, fun t ht => ?_, fun t hlo hhi => ?_⟩
  · rw [schedule, expandWords_length, hlen]
  · rw [schedule, schedWord_expandWords_of_lt 48 (by omega), schedWord_directWords b ht, blockWord_toNat b ht]
  · exact schedWord_expandWords_of_le 48 (by omega) (by omega) (by omega)

/-! ## Rounds and accumulation -/

/-- `T1` is its five terms' sum as numbers, reduced modulo 2^32. -/
theorem temp1_eq_ofNat (v : Work) (ki wi : Word) : temp1 v ki wi = BitVec.ofNat 32
    (v.hh.toNat + (bigSigma1 v.e).toNat + (ch v.e v.f v.g).toNat + ki.toNat + wi.toNat) := by
  simp [temp1, BitVec.ofNat_add]

/-- `T2` is its two terms' sum as numbers, reduced modulo 2^32. -/
theorem temp2_eq_ofNat (v : Work) :
    temp2 v = BitVec.ofNat 32 ((bigSigma0 v.a).toNat + (maj v.a v.b v.c).toNat) := by
  simp [temp2, BitVec.ofNat_add]

/-- Settles O29: a round is a record of old values, `T1` and `T2`. -/
theorem roundMixesTheOldValues : Obligations.RoundMixesTheOldValues := by
  intro w a b c d e f g hh i t1 t2
  have ht1 : temp1 ⟨a, b, c, d, e, f, g, hh⟩ (roundConstant i) (schedWord w i) = t1 := temp1_eq_ofNat _ _ _
  have ht2 : temp2 ⟨a, b, c, d, e, f, g, hh⟩ = t2 := temp2_eq_ofNat _
  simp only [roundStep, ht1, ht2]

/-- The working variables after the first `n` rounds over the schedule `w` (R131). -/
def workAfter (h : HashWords) (w : List Word) (n : Nat) : Work :=
  (List.range n).foldl (roundStep w) (Work.ofHash h)

theorem workAfter_succ (h : HashWords) (w : List Word) (n : Nat) :
    workAfter h w (n + 1) = roundStep w (workAfter h w n) n := by
  rw [workAfter, List.range_succ, List.foldl_append]
  rfl

theorem rounds_eq_workAfter (h : HashWords) (w : List Word) : rounds h w = workAfter h w 64 := rfl

/-- The working variables in the order of the hash words (R132). -/
def Work.words (v : Work) : HashWords := #v[v.a, v.b, v.c, v.d, v.e, v.f, v.g, v.hh]

theorem accumulate_getElem (h : HashWords) (v : Work) (j : Fin 8) : (accumulate h v)[j] = h[j] + v.words[j] := by
  fin_cases j <;> rfl

/-- Settles O30: the sequence is the working variables after each number of rounds. -/
theorem compressRunsSixtyFourRoundsAndAccumulates : Obligations.CompressRunsSixtyFourRoundsAndAccumulates := by
  refine fun h b => ⟨workAfter h (schedule b), rfl, fun i _ => workAfter_succ h _ i, fun j => ?_⟩
  rw [compress, rounds_eq_workAfter, accumulate_getElem, BitVec.toNat_add]
  rfl

end Sys2Proof.Machine

/-! # 42_update.md: the update pipeline -/

namespace Sys2Proof.Machine

/-! ## Blocks of bytes -/

/-- Block `i` of a byte list holds the group of 64 bytes from `64 * i` on. -/
theorem splitBlocks_getElem (k : Nat) : ∀ (bytes : List Byte) (i : Nat) (hi : i < (splitBlocks k bytes).length),
    (splitBlocks k bytes)[i] = blockOfBytes ((bytes.drop (64 * i)).take 64) := by
  induction k with
  | zero =>
    intro bytes i hi
    simp [splitBlocks] at hi
  | succ k ih =>
    intro bytes i hi
    cases i with
    | zero => simp [splitBlocks]
    | succ i =>
      have hrest : bytes.drop (64 * (i + 1)) = (bytes.drop 64).drop (64 * i) := by
        rw [List.drop_drop, Nat.mul_succ, Nat.add_comm]
      rw [hrest]
      exact ih (bytes.drop 64) i (by simpa [splitBlocks] using hi)

/-- 64 bytes copied to the front of any buffer leave the block of those bytes. -/
theorem writeBytes_eq_blockOfBytes (p : Block) {bytes : List Byte} (h : bytes.length = 64) :
    writeBytes p 0 bytes = blockOfBytes bytes := by
  refine (blockOfBytes_eq _ _ ?_).symm
  rw [writeBytes_toList p 0 bytes (by omega)]
  simp [h]

@[simp] theorem wholeBlocks_length (bytes : List Byte) : (wholeBlocks bytes).length = bytes.length / 64 := by
  simp [wholeBlocks]

/-- The bytes after the complete blocks of a byte list. -/
def afterBlocks (bytes : List Byte) : List Byte := bytes.drop (64 * (bytes.length / 64))

/-- A byte list is its complete blocks and what comes after them. -/
theorem blockBytes_wholeBlocks_append_afterBlocks (bytes : List Byte) :
    blockBytes (wholeBlocks bytes) ++ afterBlocks bytes = bytes := by
  rw [blockBytes_wholeBlocks, afterBlocks, List.take_append_drop]

/-- Cutting the bytes of blocks gives those blocks back. -/
theorem wholeBlocks_blockBytes_append (bs : List Block) (bytes : List Byte) :
    wholeBlocks (blockBytes bs ++ bytes) = bs ++ wholeBlocks bytes := by
  induction bs with
  | nil => rfl
  | cons b bs ih =>
    have hcons : blockBytes (b :: bs) = b.toList ++ blockBytes bs := rfl
    rw [hcons, List.append_assoc, wholeBlocks_block_append, ih, List.cons_append]

/-- The complete blocks of two lists together: those of the first, then those of what the first leaves over and the
second. -/
theorem wholeBlocks_append (x y : List Byte) :
    wholeBlocks (x ++ y) = wholeBlocks x ++ wholeBlocks (afterBlocks x ++ y) := by
  conv_lhs => rw [← blockBytes_wholeBlocks_append_afterBlocks x, List.append_assoc]
  exact wholeBlocks_blockBytes_append _ _

/-- What two lists together leave over: only what the first leaves over counts of it. -/
theorem afterBlocks_append (x y : List Byte) : afterBlocks (x ++ y) = afterBlocks (afterBlocks x ++ y) := by
  have hdrop : afterBlocks x ++ y = (x ++ y).drop (64 * (x.length / 64)) :=
    (List.drop_append_of_le_length (by omega)).symm
  rw [hdrop, afterBlocks, afterBlocks, List.drop_drop, List.length_drop, List.length_append]
  congr 1
  omega

/-! ## Updates one after another (42_update.md R164) -/

theorem State.update_valid_eq_afterBlocks (s : State) (data : List Byte) :
    (s.update data).valid = afterBlocks (s.valid ++ data) := s.update_valid data

/-- The same to every observer (10_state.md R36), with the same blocks compressed so far. -/
def State.SameComputation (s t : State) : Prop := s.ObsEq t ∧ s.blocks = t.blocks

theorem State.SameComputation.refl (s : State) : s.SameComputation s := ⟨⟨rfl, rfl, rfl, rfl, rfl, rfl⟩, rfl⟩

theorem State.SameComputation.trans {s t u : State} (h : s.SameComputation t) (k : t.SameComputation u) :
    s.SameComputation u := by
  obtain ⟨⟨hlc, herr, hh, hvalid, hpcount, htotal⟩, hblocks⟩ := h
  obtain ⟨⟨klc, kerr, kh, kvalid, kpcount, ktotal⟩, kblocks⟩ := k
  exact ⟨⟨hlc.trans klc, herr.trans kerr, hh.trans kh, hvalid.trans kvalid, hpcount.trans kpcount,
    htotal.trans ktotal⟩, hblocks.trans kblocks⟩

theorem State.SameComputation.symm {s t : State} (h : s.SameComputation t) : t.SameComputation s := by
  obtain ⟨⟨hlc, herr, hh, hvalid, hpcount, htotal⟩, hblocks⟩ := h
  exact ⟨⟨hlc.symm, herr.symm, hh.symm, hvalid.symm, hpcount.symm, htotal.symm⟩, hblocks.symm⟩

/-- Two updates are one update of both lists: the second meets what the first left over. -/
theorem sameComputation_update_append (s : State) (x y : List Byte) :
    ((s.update x).update y).SameComputation (s.update (x ++ y)) := by
  have hblocks : wholeBlocks (s.valid ++ (x ++ y)) =
      wholeBlocks (s.valid ++ x) ++ wholeBlocks ((s.update x).valid ++ y) := by
    rw [State.update_valid_eq_afterBlocks, ← List.append_assoc, wholeBlocks_append]
  refine ⟨⟨by simp, by simp, ?_, ?_, Fin.ext ?_, ?_⟩, ?_⟩
  · rw [State.update_h, State.update_h, State.update_h, hblocks, List.foldl_append]
  · rw [State.update_valid_eq_afterBlocks, State.update_valid_eq_afterBlocks, State.update_valid_eq_afterBlocks,
      ← List.append_assoc, ← afterBlocks_append]
  · simp only [State.update_pcount, List.length_append]
    omega
  · simp [BitVec.ofNat_add, BitVec.add_assoc]
  · rw [State.update_blocks, State.update_blocks, State.update_blocks, hblocks, List.append_assoc]

/-! ## The reduced form (42_update.md R165) -/

/-- Fewer than 64 bytes with nothing buffered are a remainder. -/
theorem absorbFromEmpty_eq_keepRemainder (s : State) {data : List Byte} (h : data.length < 64) :
    s.absorbFromEmpty data = s.keepRemainder data := by
  rw [State.absorbFromEmpty, Nat.div_eq_of_lt h]
  rfl

/-- Bytes that do not fill the block are appended at the fill count. -/
theorem update_eq_appendPartial {s : State} {data : List Byte} (h : s.pcount.val + data.length < 64) :
    s.update data = (s.countBytes data.length).appendPartial data := by
  by_cases h0 : s.pcount = 0
  · rw [update_of_empty data h0, absorbFromEmpty_eq_keepRemainder _ (by omega)]
    simp [State.keepRemainder, State.appendPartial, h0]
  · exact update_of_partial h0 (by omega)

/-- Fewer than 64 bytes that fill the block are cut where it is full. -/
theorem update_eq_fillAndCompress {s : State} {data : List Byte} (h : 64 ≤ s.pcount.val + data.length)
    (hlen : data.length < 64) : s.update data =
      ((s.countBytes data.length).fillAndCompress (data.take (64 - s.pcount.val))).keepRemainder
        (data.drop (64 - s.pcount.val)) := by
  have h0 : s.pcount ≠ 0 := by
    intro h0
    simp only [h0, Fin.val_zero] at h
    omega
  rw [update_of_full h0 (by omega), absorbFromEmpty_eq_keepRemainder _ (by rw [List.length_drop]; omega)]

/-! ## Bytes one at a time (42_update.md R167) -/

theorem update_nil (s : State) : s.update [] = s := by
  rw [update_eq_appendPartial (by simp)]
  simp [State.appendPartial, State.countBytes, writeBytes]

/-- Pushing a byte is updating with it alone. -/
theorem push_eq_update (s : State) (b : Byte) : s.push b = s.update [b] := by
  have hp := s.pcount.isLt
  by_cases h : s.pcount.val = 63
  · have hpush : s.push b = (s.countBytes 1).fillAndCompress [b] := if_pos h
    rw [hpush, update_eq_fillAndCompress (by simp [h]) (by simp), h]
    rfl
  · have hpush : s.push b = (s.countBytes 1).appendPartial [b] := if_neg h
    rw [hpush, update_eq_appendPartial (by rw [List.length_singleton]; omega)]
    rfl

/-- Successive updates are one update of all their bytes. -/
theorem sameComputation_foldl_update (chunks : List (List Byte)) : ∀ s : State,
    (chunks.foldl State.update s).SameComputation (s.update chunks.flatten) := by
  induction chunks with
  | nil =>
    intro s
    rw [List.flatten_nil, update_nil]
    exact .refl s
  | cons chunk chunks ih =>
    intro s
    exact (ih (s.update chunk)).trans (sameComputation_update_append s chunk chunks.flatten)

/-- Settles O36: the complete blocks and the bytes left over are the same however the bytes are cut. -/
theorem updateIsChunkingInvariant : Obligations.UpdateIsChunkingInvariant := by
  refine ⟨sameComputation_update_append, fun s chunks => ?_⟩
  obtain ⟨hobs, hblocks⟩ := sameComputation_foldl_update chunks s
  have ⟨_, _, hdigest, _⟩ := obsEq_finalBody hobs
  exact ⟨hobs, hblocks, hdigest⟩

/-- Settles O37: pushing the bytes is updating with each alone, a chunking of them. -/
theorem updateIsPushingItsBytes : Obligations.UpdateIsPushingItsBytes := by
  refine ⟨fun s data => ?_, fun s => ?_⟩
  · have hpush : data.foldl State.push s = (data.map fun b => [b]).foldl State.update s := by
      rw [List.foldl_map, funext₂ push_eq_update]
    have hbytes : (data.map fun b => [b]).flatten = data := List.flatMap_singleton' data
    have hsame := sameComputation_foldl_update (data.map fun b => [b]) s
    rw [← hpush, hbytes] at hsame
    exact hsame.symm
  · rw [update_nil]
    obtain ⟨hobs, -⟩ := State.SameComputation.refl s
    exact hobs

/-! ## The direct path (42_update.md R162) -/

/-- Settles O35: the blocks are the 64-byte groups, which fill a buffer whole. -/
theorem directPathIsCopyThenCompress : Obligations.DirectPathIsCopyThenCompress := by
  refine fun s k data hk => ⟨splitBlocks k data, splitBlocks_length k data, blockBytes_splitBlocks k data hk,
    directPath_eq k s data, fun i hi p => ?_⟩
  have hik : i < k := by simpa using hi
  rw [splitBlocks_getElem, writeBytes_eq_blockOfBytes p (by simp; omega)]

/-! ## The UPDATE command (42_update.md R165, R166, R168) -/

/-- UPDATE in ACTIVE absorbs the bytes it carries. -/
theorem exec_update_of_active {s : State} (h : s.lc = .active) (n : Nat) (data : Word) :
    exec (.update n data) s = .next ((s.update (dataBytes data n)).respond .ok) :=
  exec_of_ok ((lifecycleResult_update_ok n data _).2 h)

theorem exec_update_of_not_active {s : State} (h : s.lc ≠ .active) (n : Nat) (data : Word) :
    exec (.update n data) s = .next (s.fail .usage) := by
  refine exec_of_error ?_ nofun
  cases hlc : s.lc with
  | active => exact absurd hlc h
  | idle | final => rfl

/-- A word of UPDATE's opcode with a count above 4 or a reserved bit set is not legal (30_encoding.md R73). -/
theorem legal_eq_false_of_update_opcode {cmd : Word} (hopc : opcField cmd = 0x02)
    (h : 4 < (nField cmd).toNat ∨ rsvField cmd ≠ 0) : legal cmd = false := by
  obtain hcount | hrsv := h
  · simp [legal, hopc, hcount]
  · rw [legal, decide_eq_false hrsv, Bool.and_false, Bool.false_and]

/-- Settles O33: the reduced form of `update` for at most four bytes, and the two ways UPDATE fails. -/
theorem updateAbsorbsTheFirstBytesOfData : Obligations.UpdateAbsorbsTheFirstBytesOfData := by
  refine ⟨fun s n data hlc hn hroom => ?_, fun s n data hlc hn hfull => ?_,
    fun s n data hlc => ⟨_, exec_update_of_not_active hlc n data, rfl⟩, fun s cmd data hopc h => ?_⟩
  · have hlen := dataBytes_length data hn
    refine ⟨_, exec_update_of_active hlc n data, ?_, ?_⟩
    · rw [State.respond_pcount, State.update_pcount, hlen, Nat.mod_eq_of_lt hroom]
    · rw [update_eq_appendPartial (by omega), hlen]
      rfl
  · intro k full
    have hlen := dataBytes_length data hn
    have hp := s.pcount.isLt
    refine ⟨_, exec_update_of_active hlc n data, ?_, ?_⟩
    · rw [State.respond_pcount, State.update_pcount, hlen]
      omega
    · rw [update_eq_fillAndCompress (by omega) (by omega), hlen]
      rfl
  · obtain ⟨e, he⟩ := decode_of_not_legal (legal_eq_false_of_update_opcode hopc h) data
    exact ⟨_, serveCommand_of_illegal s he, rfl⟩

theorem State.update_blocks_length (s : State) (data : List Byte) :
    (s.update data).blocks.length = s.blocks.length + (s.pcount.val + data.length) / 64 := by
  simp [State.update_blocks]

/-- Settles O38: one compression for each complete block, of which four more bytes make at most one. -/
theorem updateCompressesOncePerFilledBlock : Obligations.UpdateCompressesOncePerFilledBlock := by
  refine ⟨fun s data => ⟨s.update_blocks_length data, s.update_pcount data⟩, fun s n data hlc hn =>
    ⟨_, exec_update_of_active hlc n data, ?_⟩⟩
  have hp := s.pcount.isLt
  rw [State.respond_blocks, State.update_blocks_length, dataBytes_length data hn]
  split_ifs <;> omega

/-- In ACTIVE, any UPDATE commands absorb the bytes they carry after those absorbed before. -/
theorem execAll_updates_absorbed (ops : List (Nat × Word)) : ∀ {s : State} {m : List Byte}, s.lc = .active →
    s.err = .ok → s.Absorbed m →
    ∃ t, execAll (updates ops) s = .next t ∧ t.lc = .active ∧ t.err = .ok ∧ t.Absorbed (m ++ carried ops) := by
  induction ops with
  | nil =>
    intro s m hlc herr hm
    exact ⟨s, rfl, hlc, herr, by simpa [carried] using hm⟩
  | cons op ops ih =>
    intro s m hlc herr hm
    obtain ⟨n, data⟩ := op
    have hfirst := exec_update_of_active hlc n data
    have hactive : ((s.update (dataBytes data n)).respond .ok).lc = .active := (s.update_lc _).trans hlc
    obtain ⟨t, ht, htlc, hterr, htm⟩ := ih hactive rfl (absorbed_update hm (dataBytes data n))
    refine ⟨t, ?_, htlc, hterr, ?_⟩
    · have hops : updates ((n, data) :: ops) = .update n data :: updates ops := rfl
      rw [hops, execAll, hfirst]
      exact ht
    · rwa [List.append_assoc] at htm

/-- Settles O41, by induction on the UPDATE commands from the fresh context that INIT makes. -/
theorem updatesSinceInitAbsorbTheirBytes : Obligations.UpdatesSinceInitAbsorbTheirBytes := by
  intro s ops hlc _
  have hinit : exec .init s = .next ((initBody s).respond .ok) := exec_of_ok ((lifecycleResult_init_ok _).2 hlc)
  have hfresh : ((initBody s).respond .ok).Absorbed [] := absorbed_initBody s
  obtain ⟨t, ht, htlc, hterr, htm⟩ := execAll_updates_absorbed ops rfl rfl hfresh
  refine ⟨t, ?_, htlc, hterr, htm⟩
  rw [execAll, hinit]
  exact ht

end Sys2Proof.Machine

/-! # 43_finalize.md: the finalizer -/

namespace Sys2Proof.Machine

/-! ## The FINAL command (43_finalize.md R184, R185) -/

/-- FINAL in ACTIVE runs the finalizer. -/
theorem exec_final_of_active {s : State} (h : s.lc = .active) : exec .final s = .next ((finalBody s).respond .ok) :=
  exec_of_ok ((lifecycleResult_final_ok _).2 h)

theorem exec_final_of_not_active {s : State} (h : s.lc ≠ .active) : exec .final s = .next (s.fail .usage) := by
  refine exec_of_error ?_ nofun
  cases hlc : s.lc with
  | active => exact absurd hlc h
  | idle | final => rfl

/-- STATUS after a successful FINAL is 2: nothing pending, no error, FINAL. -/
theorem status_after_final (s : State) : ((finalBody s).respond .ok).status = 0x00000002 :=
  State.status_of_empty_of_ok (finalBody_pcount s) rfl

/-- FINAL's opcode has one legal word (30_encoding.md R73). -/
theorem legal_eq_false_of_final_opcode {cmd : Word} (hopc : opcField cmd = 0x03) (hne : cmd ≠ 0x03000000) :
    legal cmd = false := by
  refine Bool.eq_false_iff.2 fun hlegal => hne (BitVec.eq_of_toNat_eq ?_)
  obtain ⟨-, hrsv, hn⟩ := (legal_iff cmd).1 hlegal
  have hopc : cmd.toNat / 2 ^ 24 = 3 := by
    rw [← opcField_toNat, hopc]
    rfl
  rw [if_neg (by omega)] at hn
  have hword : (0x03000000 : Word).toNat = 3 * 2 ^ 24 := rfl
  omega

/-- Settles O42: the one block or the two that the finalizer compresses, and the two ways FINAL fails. -/
theorem finalPadsAndCompressesTheLastBlocks : Obligations.FinalPadsAndCompressesTheLastBlocks := by
  refine ⟨fun s hlc hp => ?_, fun s hlc hp => ?_, fun s hlc => ⟨_, exec_final_of_not_active hlc, rfl⟩,
    fun s cmd data hopc hne => ?_, decode_eq_ok_iff_eq_encode fun _ => rfl⟩
  · obtain ⟨b, hb, hbody⟩ := finalBody_one_block s hp
    rw [State.bitCount_eq] at hb
    refine ⟨_, b, exec_final_of_active hlc, hb, status_after_final s, ?_⟩
    rw [hbody]
    rfl
  · obtain ⟨b, c, hb, hc, hbody⟩ := finalBody_two_blocks s hp
    rw [State.bitCount_eq] at hc
    refine ⟨_, b, c, exec_final_of_active hlc, hb, hc, status_after_final s, ?_⟩
    rw [hbody]
    rfl
  · obtain ⟨e, he⟩ := decode_of_not_legal (legal_eq_false_of_final_opcode hopc hne) data
    exact ⟨_, serveCommand_of_illegal s he, rfl⟩

/-- Settles O44: both need ACTIVE, and fail with USAGE without it. -/
theorem digestCannotBeDoublePadded : Obligations.DigestCannotBeDoublePadded := by
  intro s i hlc hi
  have hne : s.lc ≠ .active := by simp [hlc]
  obtain rfl | ⟨n, data, rfl⟩ := hi
  · exact ⟨_, exec_final_of_not_active hne, rfl⟩
  · exact ⟨_, exec_update_of_not_active hne n data, rfl⟩

/-! ## The padded message (43_finalize.md R186) -/

/-- The padding of a message fills its last block. -/
theorem padded_length (m : List Byte) : (padded m).length = m.length + 9 + (119 - m.length % 64) % 64 := by
  simp [padded, be64bytes]
  omega

theorem padded_length_mod (m : List Byte) : (padded m).length % 64 = 0 := by
  rw [padded_length]
  omega

/-- The complete blocks of the padded message hold all of it. -/
theorem blockBytes_wholeBlocks_padded (m : List Byte) : blockBytes (wholeBlocks (padded m)) = padded m := by
  have hfills := padded_length_mod m
  rw [blockBytes_wholeBlocks, List.take_of_length_le (by omega)]

theorem State.valid_append_padding_length (s : State) :
    (s.valid ++ s.padding).length = s.pcount.val + 9 + (119 - s.pcount.val) % 64 := by
  simp [State.padding, be64bytes]
  omega

/-- A message and the padding that FINAL writes after it, `pcount` and `total` counting its bytes. -/
theorem append_padding_eq_padded {s : State} {m : List Byte} (hp : s.pcount.val = m.length % 64)
    (ht : s.total = BitVec.ofNat 64 m.length) : m ++ s.padding = padded m := by
  have hbits : s.bitCount = BitVec.ofNat 64 (8 * m.length) := by
    rw [State.bitCount, ht, Nat.mul_comm, BitVec.ofNat_mul]
    rfl
  rw [State.padding, hp, hbits, padded]
  simp only [List.append_assoc]

/-! ## UPDATE commands as one update (42_update.md R164) -/

theorem execAll_append {is : List Instr} (js : List Instr) : ∀ {s t : State}, execAll is s = .next t →
    execAll (is ++ js) s = execAll js t := by
  induction is with
  | nil =>
    intro s t h
    cases h
    rfl
  | cons i is ih =>
    intro s t h
    rw [List.cons_append, execAll]
    rw [execAll] at h
    split at h
    next => exact ih h
    next => cases h
    next => cases h

theorem State.SameComputation.update {s t : State} (h : s.SameComputation t) (data : List Byte) :
    (s.update data).SameComputation (t.update data) := by
  obtain ⟨hobs, hblocks⟩ := h
  have ⟨_, _, _, hvalid, _, _⟩ := hobs
  refine ⟨obsEq_update hobs data, ?_⟩
  rw [State.update_blocks, State.update_blocks, hblocks, hvalid]

theorem State.SameComputation.finalBody {s t : State} (h : s.SameComputation t) :
    (finalBody s).SameComputation (finalBody t) := by
  obtain ⟨hobs, hblocks⟩ := h
  have ⟨_, _, _, hvalid, hpcount, htotal⟩ := hobs
  refine ⟨obsEq_finalBody hobs, ?_⟩
  rw [finalBody_blocks, finalBody_blocks, hblocks, hvalid, State.padding, State.padding, State.bitCount,
    State.bitCount, hpcount, htotal]

/-- In ACTIVE, UPDATE commands do what one update with all the bytes they carry does. -/
theorem execAll_updates_sameComputation (ops : List (Nat × Word)) : ∀ {s : State}, s.lc = .active → s.err = .ok →
    ∃ t, execAll (updates ops) s = .next t ∧ t.SameComputation (s.update (carried ops)) := by
  induction ops with
  | nil =>
    intro s _ _
    have hnone : s.update (carried []) = s := update_nil s
    refine ⟨s, rfl, ?_⟩
    rw [hnone]
    exact .refl s
  | cons op ops ih =>
    intro s hlc herr
    obtain ⟨n, data⟩ := op
    set u := (s.update (dataBytes data n)).respond .ok
    have hsame : u.SameComputation (s.update (dataBytes data n)) :=
      ⟨⟨rfl, ((s.update_err _).trans herr).symm, rfl, rfl, rfl, rfl⟩, rfl⟩
    obtain ⟨t, ht, htsame⟩ := ih (s := u) ((s.update_lc _).trans hlc) rfl
    have hops : updates ((n, data) :: ops) = .update n data :: updates ops := rfl
    have hbytes : carried ((n, data) :: ops) = dataBytes data n ++ carried ops := rfl
    refine ⟨t, ?_, ?_⟩
    · rw [hops, execAll, exec_update_of_active hlc]
      exact ht
    · rw [hbytes]
      exact (htsame.trans (hsame.update _)).trans (sameComputation_update_append s _ _)

/-! ## A whole message (43_finalize.md R182, R186) -/

/-- With nothing absorbed before, an update with `m` and FINAL compress the blocks of the padded `m`. -/
theorem wholeBlocks_update_finalBody {s : State} (hp : s.pcount = 0) (ht : s.total = 0) (m : List Byte) :
    wholeBlocks (s.valid ++ m) ++ wholeBlocks ((s.update m).valid ++ (s.update m).padding) = wholeBlocks (padded m) := by
  have hpcount : (s.update m).pcount.val = m.length % 64 := by simp [State.update_pcount, hp]
  have htotal : (s.update m).total = BitVec.ofNat 64 m.length := by simp [ht]
  rw [State.update_valid_eq_afterBlocks, ← wholeBlocks_append, State.valid_of_pcount_zero hp, List.nil_append,
    append_padding_eq_padded hpcount htotal]

/-- From IDLE, INIT, UPDATE commands carrying a message and FINAL compress, from IV, the blocks of the padded message. -/
theorem execAll_message {s : State} (hlc : s.lc = .idle) (ops : List (Nat × Word)) :
    ∃ t, execAll (.init :: updates ops ++ [.final]) s = .next t ∧ t.lc = .final ∧
      t.total = BitVec.ofNat 64 (carried ops).length ∧ t.blocks = s.blocks ++ wholeBlocks (padded (carried ops)) ∧
      t.h = (wholeBlocks (padded (carried ops))).foldl compress iv := by
  set u := (initBody s).respond .ok
  have hinit : exec .init s = .next u := exec_of_ok ((lifecycleResult_init_ok _).2 hlc)
  obtain ⟨v, hv, hsame⟩ := execAll_updates_sameComputation ops (s := u) rfl rfl
  have ⟨⟨hvlc, _⟩, _⟩ := hsame
  have hactive : v.lc = .active := hvlc.trans (u.update_lc _)
  have hupdates : execAll (.init :: updates ops) s = .next v := by
    rw [execAll, hinit]
    exact hv
  obtain ⟨⟨-, -, hh, -, -, htotal⟩, hblocks⟩ := hsame.finalBody
  refine ⟨(finalBody v).respond .ok, ?_, rfl, ?_, ?_, ?_⟩
  · rw [execAll_append _ hupdates, execAll, exec_final_of_active hactive]
    rfl
  · rw [State.respond_total, htotal, finalBody_total, State.update_total]
    exact BitVec.zero_add _
  · rw [State.respond_blocks, hblocks, finalBody_blocks, State.update_blocks, List.append_assoc,
      wholeBlocks_update_finalBody rfl rfl]
    rfl
  · rw [State.respond_h, hh, finalBody_h, State.update_h, ← List.foldl_append, wholeBlocks_update_finalBody rfl rfl]
    rfl

/-- Settles O45: the blocks of the padded message are its bytes, with nothing left over. -/
theorem theBytesCompressedAreThePaddedMessage : Obligations.TheBytesCompressedAreThePaddedMessage := by
  intro s ops hlc _
  obtain ⟨t, ht, hfinal, htotal, hblocks, hh⟩ := execAll_message hlc ops
  exact ⟨t, _, ht, hfinal, htotal, hblocks, blockBytes_wholeBlocks_padded _, padded_length_mod _, hh⟩

/-- Settles O43: one compression for each block of the valid bytes and the padding, or of the padded message. -/
theorem finalCompressesOnceOrTwice : Obligations.FinalCompressesOnceOrTwice := by
  refine ⟨fun s hlc => ⟨_, exec_final_of_active hlc, ?_⟩, fun s ops hlc _ => ?_⟩
  · have hp := s.pcount.isLt
    rw [State.respond_blocks, finalBody_blocks, List.length_append, wholeBlocks_length, State.valid_append_padding_length]
    split_ifs <;> omega
  · obtain ⟨t, ht, -, -, hblocks, -⟩ := execAll_message hlc ops
    refine ⟨t, ht, ?_⟩
    rw [hblocks, List.length_append, wholeBlocks_length, padded_length]
    split_ifs <;> omega

end Sys2Proof.Machine

/-! # 60_exceptions.md: result codes, failed commands and instances -/

namespace Sys2Proof.Machine

/-! ## Instances of a platform (60_exceptions.md R214) -/

/-- No transaction stops the block. -/
theorem step_answers_next (s : State) : ∃ t, step s = .next t := by
  cases hq : s.queue with
  | nil => exact ⟨s, by rw [step, serveNext, hq]⟩
  | cons r rest =>
    obtain ⟨t, ws, -, hserve⟩ := serve_host r s
    exact ⟨_, (step_of_queue_cons hq).trans (hserve rest s.replies)⟩

/-- A platform's step at `k` is the own step of the state there, and leaves those at other places as they were. -/
theorem stepInstance_frame (k : Nat) (p : List State) : ∃ p', stepInstance k p = .next p' ∧ p'.length = p.length ∧
    (∀ s, p[k]? = some s → ∃ t, step s = .next t ∧ p'[k]? = some t) ∧ ∀ j, k ≠ j → p'[j]? = p[j]? := by
  cases hk : p[k]? with
  | none => exact ⟨p, by rw [stepInstance, hk], rfl, nofun, fun _ _ => rfl⟩
  | some s =>
    obtain ⟨t, ht⟩ := step_answers_next s
    obtain ⟨hlt, -⟩ := List.getElem?_eq_some_iff.1 hk
    refine ⟨p.set k t, by simp only [stepInstance, hk, ht], List.length_set, ?_, fun j hne => List.getElem?_set_ne hne⟩
    rintro _ ⟨⟩
    exact ⟨t, ht, List.getElem?_set_self hlt⟩

/-- Settles O51, by induction on the schedule: its first step touches the state at `k` alone. -/
theorem instancesDoNotInterfere : Obligations.InstancesDoNotInterfere := by
  intro ks
  induction ks with
  | nil => exact fun p => ⟨p, rfl, rfl, fun j s hs => ⟨s, rfl, hs⟩⟩
  | cons k ks ih =>
    intro p
    obtain ⟨p', hstep, hlen, hown, hother⟩ := stepInstance_frame k p
    obtain ⟨q, hsteps, hqlen, hq⟩ := ih p'
    refine ⟨q, by simp only [stepInstances, hstep, hsteps], hqlen.trans hlen, fun j s hs => ?_⟩
    by_cases hkj : k = j
    · subst hkj
      obtain ⟨u, hu, hpu⟩ := hown s hs
      obtain ⟨t, ht, hqt⟩ := hq k u hpu
      exact ⟨t, by simp only [List.count_cons_self, stepMany, hu, ht], hqt⟩
    · rw [List.count_cons_of_ne hkj]
      exact hq j s ((hother j hkj).trans hs)

/-! ## What changes the state (60_exceptions.md R216) -/

/-- Settles O14: the steps left over are an idle one and a read, and neither writes a field of the block. -/
theorem onlyACommandOrResetChangesTheBlock : Obligations.OnlyACommandOrResetChangesTheBlock := by
  intro s t hstep hchanged
  obtain ⟨-, hs⟩ | ⟨rest, ⟨cmd, data, hq, -⟩ | ⟨r, -, hs⟩ | ⟨hq, -⟩⟩ := step_cases s
  · rw [hs] at hstep
    cases hstep
    exact absurd ⟨⟨rfl, rfl, rfl, rfl, rfl, rfl⟩, rfl⟩ hchanged
  · exact ⟨rest, .inl ⟨cmd, data, hq⟩⟩
  · rw [hs] at hstep
    cases hstep
    exact absurd ⟨⟨rfl, rfl, rfl, rfl, rfl, rfl⟩, rfl⟩ hchanged
  · exact ⟨rest, .inr hq⟩

/-! ## The one code of a command, and failure (60_exceptions.md R205, R206) -/

/-- A legal command leaves in `err` the code of the lifecycle table. -/
theorem exec_err (i : Instr) (s : State) : ∃ t, exec i s = .next t ∧ t.err = lifecycleResult i s.lc := by
  by_cases hok : lifecycleResult i s.lc = .ok
  · exact ⟨_, exec_of_ok hok, hok.symm⟩
  · exact ⟨_, exec_of_fail hok, rfl⟩

/-- Settles O17: a word is illegal or decodes, and the lifecycle table is asked only for what decodes. -/
theorem errorPriorityIsLegalityThenLifecycle : Obligations.ErrorPriorityIsLegalityThenLifecycle := by
  intro cmd data s
  cases hd : decode cmd data with
  | error e => exact ⟨_, serveCommand_of_illegal s hd, fun _ => rfl, nofun⟩
  | ok i =>
    obtain ⟨hlegal, -⟩ := decode_eq_ok_iff.1 hd
    obtain ⟨t, ht, herr⟩ := exec_err i s
    refine ⟨t, (serveCommand_of_decode s hd).trans ht, fun hillegal => ?_, ?_⟩
    · rw [hlegal] at hillegal
      cases hillegal
    · rintro _ ⟨⟩
      exact herr

/-- Settles O18: a command that does not end with OK is `fail`, which keeps `lc`, all that UPDATE asks for. -/
theorem failedCommandWritesErrAndNothingElse : Obligations.FailedCommandWritesErrAndNothingElse := by
  intro cmd data s t hserve hfailed
  obtain ⟨i, -, -, hc⟩ | ⟨e, -, hc⟩ := serveCommand_ends cmd data s <;> rw [hc] at hserve <;> cases hserve
  · exact absurd rfl hfailed
  · refine ⟨rfl, fun hactive n d _ => ?_⟩
    have hlc : (s.fail e).lc = .active := hactive
    exact ⟨_, exec_update_of_active hlc n d, rfl⟩

end Sys2Proof.Machine

/-! # 70_reset_and_hazards.md: reset -/

namespace Sys2Proof.Machine

/-- In the reset state every read index reads 0: STATUS, `total` and the hash words are 0, the other indices unassigned. -/
theorem readWord_reset : ∀ r : BitVec 4, State.reset.readWord r = 0 := by decide

/-- Of a state, a read sees `lc`, `err`, `pcount`, `total` and `h`, and a reset sets each as power-on does. -/
@[simp] theorem State.readWord_serveReset (s : State) (r : BitVec 4) : s.serveReset.readWord r = 0 :=
  readWord_reset r

/-- INIT is accepted right after a reset and loads the ROM's IV (10_state.md R30, 40_lifecycle.md R103). -/
theorem exec_init_serveReset (s : State) : ∃ u, exec .init s.serveReset = .next u ∧ u.h = iv :=
  ⟨_, exec_of_ok ((lifecycleResult_init_ok _).2 s.serveReset_lc), rfl⟩

/-- Settles O1: the step is `serveReset`, whose fields are the reset values. -/
theorem resetSetsEveryFieldToItsResetValue : Obligations.ResetSetsEveryFieldToItsResetValue := by
  intro s rest hq
  have hreads := ({ s with queue := rest } : State).readWord_serveReset
  refine ⟨_, step_of_queue_cons hq, rfl, rfl, fun j => ?_, fun j => ?_, rfl, rfl, hreads 0, hreads, rfl, rfl,
    exec_init_serveReset { s with queue := rest }⟩
  · rw [State.serveReset_h, Fin.getElem_fin, Vector.getElem_replicate]
  · rw [State.serveReset_pending, Fin.getElem_fin, Vector.getElem_replicate]

/-- Settles O2: an abandoned command is served as a reset, whatever its two words are. -/
theorem resetAbandonsTheCommandInFlight : Obligations.ResetAbandonsTheCommandInFlight :=
  fun _ _ _ _ hq => step_of_queue_cons hq

end Sys2Proof.Machine

/-! # 10_state.md: the ROM and reset -/

namespace Sys2Proof.Machine

/-- Settles O31: the inequalities of the eight square roots and the 64 cube roots, on the numbers of the two tables. -/
theorem romHoldsTheRootsOfThePrimes : Obligations.RomHoldsTheRootsOfThePrimes := by
  unfold Obligations.RomHoldsTheRootsOfThePrimes
  constructor
  · decide
  · decide

/-- Settles O47: the reset state is IDLE and all zero. -/
theorem resetMeetsTheInvariant : Obligations.ResetMeetsTheInvariant := State.inv_of_zero rfl rfl rfl rfl rfl

end Sys2Proof.Machine

/-! # 20_memory.md: several hosts, and the end of a run -/

namespace Sys2Proof.Machine

/-! ## The arbiter (20_memory.md R62) -/

/-- The first transaction of the hosts' lists put together is some host's first. -/
theorem exists_pick_of_flatten_eq_cons {r : Request} {zs : List Request} : ∀ {hosts : List (List Request)},
    hosts.flatten = r :: zs → ∃ k rest, hosts[k]? = some (r :: rest) ∧ (hosts.set k rest).flatten = zs := by
  intro hosts
  induction hosts with
  | nil => exact nofun
  | cons host hosts ih =>
    cases host with
    | nil =>
      intro h
      obtain ⟨k, rest, hk, hrest⟩ := ih h
      exact ⟨k + 1, rest, hk, hrest⟩
    | cons r' rest =>
      rintro ⟨⟩
      exact ⟨0, rest, rfl, rfl⟩

/-- Host by host, all of one's transactions before the next one's, is an interleaving. -/
theorem interleaving_flatten (hosts : List (List Request)) : Interleaving hosts hosts.flatten := by
  generalize hzs : hosts.flatten = zs
  induction zs generalizing hosts with
  | nil => exact .done hosts (List.flatten_eq_nil_iff.1 hzs)
  | cons r zs ih =>
    obtain ⟨k, rest, hk, hrest⟩ := exists_pick_of_flatten_eq_cons hzs
    exact .pick hosts k r rest zs hk (ih _ hrest)

/-- Whatever the arbiter chooses is an interleaving. -/
theorem interleaving_arbitrate (choices : List Nat) : ∀ hosts : List (List Request),
    Interleaving hosts (arbitrate choices hosts) := by
  induction choices with
  | nil => exact interleaving_flatten
  | cons k choices ih =>
    intro hosts
    rw [arbitrate]
    split
    next r rest hk => exact .pick hosts k r rest _ hk (ih _)
    next => exact ih hosts

/-- An interleaving's own picks are choices that produce it. -/
theorem exists_choices_of_interleaving {hosts : List (List Request)} {zs : List Request}
    (h : Interleaving hosts zs) : ∃ choices, arbitrate choices hosts = zs := by
  induction h with
  | done hosts h => exact ⟨[], List.flatten_eq_nil_iff.2 h⟩
  | pick hosts k r rest zs hk _ ih =>
    obtain ⟨choices, hchoices⟩ := ih
    exact ⟨k :: choices, by simp only [arbitrate, hk, hchoices]⟩

/-- Settles O50: a pick is a choice, and the choices that run out leave the hosts' lists one after another. -/
theorem arbiterAdmitsExactlyTheInterleavings : Obligations.ArbiterAdmitsExactlyTheInterleavings := by
  refine fun hosts zs => ⟨exists_choices_of_interleaving, ?_⟩
  rintro ⟨choices, rfl⟩
  exact interleaving_arbitrate choices hosts

/-! ## The end of a run and its observation (20_memory.md R66) -/

/-- Transactions served after others meet the state those left. -/
theorem serveAll_append {rs : List Request} (rs' : List Request) : ∀ {s t : State}, serveAll rs s = .next t →
    serveAll (rs ++ rs') s = serveAll rs' t := by
  induction rs with
  | nil =>
    rintro s t ⟨⟩
    rfl
  | cons r rs ih =>
    intro s t h
    rw [List.cons_append, serveAll]
    rw [serveAll] at h
    split at h
    next => exact ih h
    next => cases h
    next => cases h

/-- Before the last command has been taken off the host's list, a command waits. -/
theorem any_isCommand_drop (program : List Request) : ∀ {j : Nat}, j < (throughLastCommand program).length →
    (program.drop j).any Request.isCommand = true := by
  induction program with
  | nil => exact nofun
  | cons r rs ih =>
    intro j hj
    rw [throughLastCommand] at hj
    split at hj
    next hany =>
      cases j with
      | zero => exact hany
      | succ j => exact ih (Nat.lt_of_succ_lt_succ hj)
    next => cases hj

/-- Steps take transactions off the host's list from its head. -/
theorem queue_of_stepMany {s v : State} {j : Nat} (hj : j ≤ s.queue.length) (h : stepMany j s = .next v) :
    v.queue = s.queue.drop j := by
  have hlen : (s.queue.take j).length = j := List.length_take_of_le hj
  have hserved := stepMany_of_queue_append (s.queue.drop j) (s.queue.take j) s (List.take_append_drop j _).symm
  obtain ⟨t, ws, -, hserve⟩ := serveAll_host (s.queue.take j) s
  have hstate := hserve (s.queue.drop j) s.replies
  rw [hlen, h] at hserved
  cases hserved.trans hstate
  rfl

/-- As many replies as transactions where each is a command or a read. -/
theorem sum_replyCount {program : List Request}
    (h : ∀ r ∈ program, (∃ cmd data, r = .command cmd data) ∨ ∃ x, r = .read x) :
    (program.map Request.replyCount).sum = program.length := by
  have hone : ∀ r ∈ program, r.replyCount = 1 := by
    intro r hr
    obtain ⟨cmd, data, rfl⟩ | ⟨x, rfl⟩ := h r hr <;> rfl
  rw [List.map_congr_left hone, List.map_const', List.sum_replicate, smul_eq_mul, mul_one]

/-- With what stands after the last command waiting, the run is over. -/
theorem runEnded_afterLastCommand {t : State} {program : List Request} (h : t.queue = afterLastCommand program) :
    t.runEnded = true := by
  rw [State.runEnded, h, afterLastCommand_no_command]
  rfl

/-- With fewer steps than lead through the last command, the run is not over. -/
theorem not_runEnded_of_stepMany {s v : State} {j : Nat} (hj : j < (throughLastCommand s.queue).length)
    (h : stepMany j s = .next v) : v.runEnded = false := by
  have hlen := congrArg List.length (throughLastCommand_append s.queue)
  rw [List.length_append] at hlen
  rw [State.runEnded, queue_of_stepMany (by omega) h, any_isCommand_drop _ hj]
  rfl

/-- What reads add to the replies are the words of the state they meet. -/
theorem replies_of_reads {t u : State} {rs : List (BitVec 4)} {vs : List Reply}
    (h : ∀ q p, serveAll (rs.map .read) { t with queue := q, replies := p } =
      .next { u with queue := q, replies := p ++ vs }) : vs = rs.map fun x => .rdata (t.readWord x) := by
  have hreads := (serveAll_reads rs { t with queue := [], replies := [] }).symm.trans (h [] [])
  injection hreads with hstate
  exact (congrArg State.replies hstate).symm

/-- Settles O53: the run is over after `throughLastCommand`, and what it and then `afterLastCommand` add to the replies
are the observation's results. -/
theorem runEndsAtTheLastCommandsResponse : Obligations.RunEndsAtTheLastCommandsResponse := by
  intro s program
  have hprogram := throughLastCommand_append program
  have hlen := congrArg List.length hprogram
  rw [List.length_append] at hlen
  obtain ⟨t, ws, hws, ht⟩ := serveAll_host (throughLastCommand program) s
  obtain ⟨u, vs, hvs, hu⟩ := serveAll_host (afterLastCommand program) t
  have hsteps := stepMany_of_queue_append (afterLastCommand program) _ { s with queue := program } hprogram.symm
  have hall := stepMany_of_queue_append [] program { s with queue := program } (List.append_nil _).symm
  refine ⟨(throughLastCommand program).length,
    { t with queue := afterLastCommand program, replies := s.replies ++ ws },
    { u with queue := [], replies := s.replies ++ ws ++ vs },
    { results := ws ++ vs, state := { t with queue := [], replies := s.replies ++ ws } },
    ?_, by omega, hsteps.trans (ht _ _), runEnded_afterLastCommand rfl, fun j v hj hv => not_runEnded_of_stepMany hj hv,
    ?_, rfl, List.append_assoc _ _ _, fun hkinds => ?_, fun rs hrs => ?_⟩
  · simp only [State.observe, ht, hu, List.nil_append]
  · refine hall.trans ?_
    conv_lhs => rw [← hprogram]
    rw [serveAll_append _ (ht _ _), hu]
  · rw [List.length_append, hws, hvs, ← List.sum_append, ← List.map_append, hprogram, sum_replyCount hkinds]
  · have hafter : afterLastCommand program = rs.map .read := hrs
    rw [hafter] at hu
    rw [List.drop_left, replies_of_reads hu]
    rfl

end Sys2Proof.Machine

/-! # 30_encoding.md: the encoder and the decoder, and BYTES -/

namespace Sys2Proof.Machine

/-! ## The decoder and the encoder (30_encoding.md R72, R75) -/

/-- Settles O8, by the five commands: the three fields of a command word are read back as they were written. -/
theorem decodeOfEncodeIsTheCommand : Obligations.DecodeOfEncodeIsTheCommand :=
  fun _ hwf => decode_encode hwf

/-- The decoder lets no count above `UPD_MAX` through (30_encoding.md R73). -/
theorem wellFormed_of_decode {cmd data : Word} {i : Instr} (h : decode cmd data = .ok i) : i.wellFormed = true := by
  obtain ⟨hlegal, ⟨-, rfl⟩ | ⟨-, rfl⟩ | ⟨hopc, rfl⟩ | ⟨-, rfl⟩ | ⟨-, rfl⟩⟩ := decode_eq_ok_iff.1 h
  case inr.inr.inl =>
    obtain ⟨-, -, hn⟩ := (legal_iff cmd).1 hlegal
    rw [if_pos hopc] at hn
    exact decide_eq_true hn
  all_goals rfl

/-- A decoded UPDATE carries the DATA word whole (30_encoding.md R74). -/
theorem data_of_decode_update {cmd data d : Word} {n : Nat} (h : decode cmd data = .ok (.update n d)) : d = data := by
  obtain ⟨-, ⟨-, hi⟩ | ⟨-, hi⟩ | ⟨-, hi⟩ | ⟨-, hi⟩ | ⟨-, hi⟩⟩ := decode_eq_ok_iff.1 h <;> cases hi
  rfl

/-- Settles O9: the legality that decoding asks for is well-formedness, and leaves the word no bit of its own. -/
theorem encodeOfDecodeIsTheCommandWord : Obligations.EncodeOfDecodeIsTheCommandWord := by
  refine fun cmd data i h => ⟨wellFormed_of_decode h, encode_of_decode h, ?_⟩
  rintro n d rfl
  exact data_of_decode_update h

/-- Settles O10: the decoder evaluated on each of the ten words. -/
theorem specWordsDecodeAsStated : Obligations.SpecWordsDecodeAsStated :=
  ⟨rfl, rfl, rfl, rfl, rfl, rfl, rfl, rfl, rfl, rfl⟩

/-! ## BYTES (30_encoding.md R79) -/

theorem be32bytes_be32 (b0 b1 b2 b3 : Byte) : be32bytes (be32 b0 b1 b2 b3) = [b0, b1, b2, b3] := by
  have hnum := be32_toNat b0 b1 b2 b3
  have h0 := b0.isLt
  have h1 := b1.isLt
  have h2 := b2.isLt
  have h3 := b3.isLt
  simp only [be32bytes, List.cons.injEq, and_true, ← BitVec.toNat_inj, toNat_byteAt, hnum]
  omega

theorem dataBytes_be32 (b0 b1 b2 b3 : Byte) (n : Nat) :
    dataBytes (be32 b0 b1 b2 b3) n = [b0, b1, b2, b3].take n := by
  rw [dataBytes, be32bytes_be32]

/-- The count and DATA word of each UPDATE that BYTES issues (30_encoding.md R79). -/
def bytesOps : List Byte → List (Nat × Word)
  | [] => []
  | [b0] => [(1, be32 b0 0 0 0)]
  | [b0, b1] => [(2, be32 b0 b1 0 0)]
  | [b0, b1, b2] => [(3, be32 b0 b1 b2 0)]
  | b0 :: b1 :: b2 :: b3 :: rest => (4, be32 b0 b1 b2 b3) :: bytesOps rest

theorem bytesRequests_eq_updates (bs : List Byte) : bytesRequests bs = (updates (bytesOps bs)).map issue := by
  induction bs using bytesOps.induct with
  | case1 | case2 | case3 | case4 => rfl
  | case5 b0 b1 b2 b3 rest ih =>
    rw [bytesRequests, ih]
    rfl

theorem bytesOps_count (bs : List Byte) : ∀ o ∈ bytesOps bs, 1 ≤ o.1 ∧ o.1 ≤ 4 := by
  induction bs using bytesOps.induct with
  | case1 => exact nofun
  | case2 | case3 | case4 => simp [bytesOps]
  | case5 b0 b1 b2 b3 rest ih => simpa [bytesOps] using ih

theorem carried_bytesOps (bs : List Byte) : carried (bytesOps bs) = bs := by
  induction bs using bytesOps.induct with
  | case1 => rfl
  | case2 | case3 | case4 => simp [bytesOps, carried, dataBytes_be32]
  | case5 b0 b1 b2 b3 rest ih =>
    have hcons : carried (bytesOps (b0 :: b1 :: b2 :: b3 :: rest)) =
        dataBytes (be32 b0 b1 b2 b3) 4 ++ carried (bytesOps rest) := rfl
    rw [hcons, dataBytes_be32, ih]
    rfl

/-- Settles O52, by induction on the bytes in groups of four. -/
theorem bytesExpandsToUpdatesCarryingThem : Obligations.BytesExpandsToUpdatesCarryingThem :=
  fun bs => ⟨bytesOps bs, bytesRequests_eq_updates bs, bytesOps_count bs, carried_bytesOps bs⟩

end Sys2Proof.Machine

/-! # 40_lifecycle.md and 60_exceptions.md: the step -/

namespace Sys2Proof.Machine

theorem step_of_queue_nil {s : State} (h : s.queue = []) : step s = .next s := by
  rw [step, serveNext, h]

theorem decodeTableWord_eq_some_iff {nbits w : Nat} {i : Instr} :
    decodeTableWord nbits w = some i ↔ decode (tableCmd nbits w) (tableData nbits w) = .ok i := by
  unfold decodeTableWord
  split
  next hd => simp [hd]
  next hd => simp [hd]

/-- Settles O12: the oldest transaction is served, and `withFetchWord` makes the table word the oldest. -/
theorem stepRunsTheDecodedCommand : Obligations.StepRunsTheDecodedCommand := by
  refine ⟨fun s cmd data rest i hq hd => ?_, fun s cmd data rest e hq hd => ?_, fun s w i _ hw => ?_⟩
  · exact (step_of_queue_cons hq).trans (serveCommand_of_decode _ hd)
  · exact (step_of_queue_cons hq).trans (serveCommand_of_illegal _ hd)
  · have hq : (s.withFetchWord 32 w).queue = .command (tableCmd 32 w) (tableData 32 w) :: s.queue := rfl
    exact (step_of_queue_cons hq).trans (serveCommand_of_decode s (decodeTableWord_eq_some_iff.1 hw))

/-- Settles O13, by the step's case of an empty list. -/
theorem idleBlockHoldsItsState : Obligations.IdleBlockHoldsItsState := fun _ => step_of_queue_nil

/-- Settles O15: every transaction is served with a next state, and with none waiting the block holds its state. -/
theorem everyStepAnswersANextState : Obligations.EveryStepAnswersANextState := step_answers_next

end Sys2Proof.Machine

/-! # 42_update.md: the bytes of `pending` -/

namespace Sys2Proof.Machine

/-- Settles O34: the first bytes go in at the fill count, the rest, once the block is full, at the front. -/
theorem updateWritesOnlyItsOwnBytesOfPending : Obligations.UpdateWritesOnlyItsOwnBytesOfPending := by
  intro s n data hlc hn
  have hlen := dataBytes_length data hn
  have hp := s.pcount.isLt
  refine ⟨_, exec_update_of_active hlc n data, fun j => ⟨fun hroom => ?_, fun hfull => ?_⟩⟩
  · rw [State.respond_pending, update_eq_appendPartial (by omega), State.appendPartial_pending,
      State.countBytes_pending, State.countBytes_pcount, writeBytes_get, hlen]
  · rw [State.respond_pending, update_eq_fillAndCompress (by omega) (by omega), State.keepRemainder_pending,
      State.fillAndCompress_pending, State.countBytes_pending, State.countBytes_pcount, writeBytes_get, writeBytes_get]
    have hj := j.isLt
    simp only [List.length_drop, List.length_take, hlen, List.getD_eq_getElem?_getD, List.getElem?_drop, Nat.sub_zero]
    refine if_congr (by omega) rfl (if_congr (by omega) ?_ rfl)
    rw [List.getElem?_take_of_lt (by omega)]

end Sys2Proof.Machine

/-! # 43_finalize.md: the digest and the message -/

namespace Sys2Proof.Machine

/-- Settles O46: `execAll_message` gives the hash words and the total from the bytes carried alone. -/
theorem digestDependsOnTheMessageAlone : Obligations.DigestDependsOnTheMessageAlone := by
  intro s s' ops ops' hlc hlc' _ _ hbytes
  obtain ⟨t, ht, -, htotal, -, hh⟩ := execAll_message hlc ops
  obtain ⟨t', ht', -, htotal', -, hh'⟩ := execAll_message hlc' ops'
  have hsame : t.h = t'.h := by rw [hh, hh', hbytes]
  refine ⟨t, t', ht, ht', hsame, congrArg digestBytes hsame, ?_⟩
  rw [htotal, htotal', hbytes]

end Sys2Proof.Machine
